-- ==== Sys2Proof/Word.lean ====
section
/-! DEFINITION. The command word type and the two register index types (00_scope.md R5, R6, R8; 30_encoding.md R70, R74). -/

namespace Sys2Proof

/-- A 32-bit command word, and a 32-bit CSR (30_encoding.md R70; 10_state.md R24). -/
abbrev Word := BitVec 32

/-- The index of a scalar register `R0` to `R15` (10_state.md R20). -/
abbrev RegIdx := Fin 16

/-- The index of a point register `P0` to `P15` (10_state.md R22). -/
abbrev PtIdx := Fin 16

/-- A 4-bit CSR number (10_state.md R24). -/
abbrev CsrNum := Fin 16

end Sys2Proof
end

