-- ==== Sys2Proof/Config.lean ====
section
/-! DEFINITION. The constants the spec fixes for every instance of the core, the reference value of its one parameter `W`, and the one
free value: the command word the core takes from a unit wider than 32 bits. -/

namespace Sys2Proof.Config

/-- The least width the parameter `W` may take (00_scope.md R5). -/
def minWidth : Nat := 32

/-- The spec's reference value of `W` (00_scope.md R5). Only `State.reset` uses it. DESIGN CHOICE (log 1): `W` is an open parameter
and the model carries it in `State.width`, so a claim about every state is a claim about every `W`. -/
def referenceWidth : Nat := 256

/-- The value the ID CSR reads, ASCII "ECC1" (10_state.md R35). -/
def idValue : Word := 0x45434331

/-- The highest CSR number RDCSR may name (30_encoding.md R79). -/
def lastCsr : Nat := 8

/-- The number of CTRL, the only CSR that WRCSR may name (30_encoding.md R79). -/
def ctrlCsr : Nat := 1

/-- The highest block base CINIT may name (30_encoding.md R80). -/
def lastBase : Nat := 11

/-- FREE VALUE (log 19). The command word the core takes where the next unit is wider than 32 bits. After a reset between an LDR word and
its beat, a beat of up to `W` bits stands where the core "decodes [it] as a command word" (70_reset_and_hazards.md R261), and the spec does
not say which 32-bit word that is. -/
opaque wordOfWideUnit : Nat → Word

end Sys2Proof.Config
end

