-- ==== Sys2Proof/Syntax.lean ====
section
/-! DEFINITION. The 26 commands as syntax: `Mnemonic`, the rows of the opcode map (30_encoding.md R75), and `Instr`, the commands with
their operands. Opcodes and used fields stand in Decode.lean. -/

namespace Sys2Proof

/-- The names of the 26 commands, in the order of the opcode map (30_encoding.md R75). -/
inductive Mnemonic
  | ldr | str | movr | rdcsr | wrcsr | clrf | cinit
  | madd | msub | mmul | minv | mexp
  | mkp | mkinf | movp | pgx | pgy | ptinf
  | pchk | pneg | padd | pdbl | smul | pord
  | encf | decf
  deriving DecidableEq, Repr

/-- A command with its operands (30_encoding.md R75, R90). A field the command does not use is not an operand. LDR's data beat is its
one literal (R78). -/
inductive Instr
  /-- `ldr rD, IMM`: R200. -/
  | ldr (rd : RegIdx) (beat : Nat)
  /-- `str rS`: R201. -/
  | str (rs : RegIdx)
  /-- `movr rD, rS`: R202. -/
  | movr (rd rs : RegIdx)
  /-- `rdcsr rD, CSR`: R203. -/
  | rdcsr (rd : RegIdx) (csr : CsrNum)
  /-- `wrcsr CSR, rS`: R204. -/
  | wrcsr (csr : CsrNum) (rs : RegIdx)
  /-- `clrf`: R205. -/
  | clrf
  /-- `cinit rB`: R120. -/
  | cinit (base : RegIdx)
  /-- `madd rD, rS1, rS2`: R101. -/
  | madd (rd rs1 rs2 : RegIdx)
  /-- `msub rD, rS1, rS2`: R102. -/
  | msub (rd rs1 rs2 : RegIdx)
  /-- `mmul rD, rS1, rS2`: R103. -/
  | mmul (rd rs1 rs2 : RegIdx)
  /-- `minv rD, rS`: R104. -/
  | minv (rd rs1 : RegIdx)
  /-- `mexp rD, rBase, rExp`: R105. -/
  | mexp (rd base exp : RegIdx)
  /-- `mkp pD, rX, rY`: R206. -/
  | mkp (pd : PtIdx) (rx ry : RegIdx)
  /-- `mkinf pD`: R207. -/
  | mkinf (pd : PtIdx)
  /-- `movp pD, pS`: R208. -/
  | movp (pd ps : PtIdx)
  /-- `pgx rD, pS`: R209. -/
  | pgx (rd : RegIdx) (ps : PtIdx)
  /-- `pgy rD, pS`: R210. -/
  | pgy (rd : RegIdx) (ps : PtIdx)
  /-- `ptinf rD, pS`: R211. -/
  | ptinf (rd : RegIdx) (ps : PtIdx)
  /-- `pchk rD, pS`: R141. -/
  | pchk (rd : RegIdx) (ps : PtIdx)
  /-- `pneg pD, pS`: R146. -/
  | pneg (pd ps : PtIdx)
  /-- `padd pD, pS1, pS2`: R144. -/
  | padd (pd ps1 ps2 : PtIdx)
  /-- `pdbl pD, pS`: R145. -/
  | pdbl (pd ps : PtIdx)
  /-- `smul pD, rK, pS`: R170. -/
  | smul (pd : PtIdx) (rk : RegIdx) (ps : PtIdx)
  /-- `pord rD, pS`: R175. -/
  | pord (rd : RegIdx) (ps : PtIdx)
  /-- `encf pD, pS`: R190. -/
  | encf (pd ps : PtIdx)
  /-- `decf pD, pS`: R191. -/
  | decf (pd ps : PtIdx)
  deriving DecidableEq, Repr

/-- The row of the opcode map a command belongs to. -/
def Instr.mnemonic : Instr → Mnemonic
  | .ldr _ _ => .ldr
  | .str _ => .str
  | .movr _ _ => .movr
  | .rdcsr _ _ => .rdcsr
  | .wrcsr _ _ => .wrcsr
  | .clrf => .clrf
  | .cinit _ => .cinit
  | .madd _ _ _ => .madd
  | .msub _ _ _ => .msub
  | .mmul _ _ _ => .mmul
  | .minv _ _ => .minv
  | .mexp _ _ _ => .mexp
  | .mkp _ _ _ => .mkp
  | .mkinf _ => .mkinf
  | .movp _ _ => .movp
  | .pgx _ _ => .pgx
  | .pgy _ _ => .pgy
  | .ptinf _ _ => .ptinf
  | .pchk _ _ => .pchk
  | .pneg _ _ => .pneg
  | .padd _ _ _ => .padd
  | .pdbl _ _ => .pdbl
  | .smul _ _ _ => .smul
  | .pord _ _ => .pord
  | .encf _ _ => .encf
  | .decf _ _ => .decf

end Sys2Proof
end

