-- ==== Sys2Proof/Decode.lean ====
section
/-! DEFINITION. The encoding: the opcode map as one table, the fields of a word, the framing of the command channel, the decoder (total
on every list of channel units, rejecting by name) and, after it, the encoder written from the same table (30_encoding.md). -/

namespace Sys2Proof

/-! ## The opcode map -/

/-- Every command, in the order of the opcode map (30_encoding.md R75). -/
def Mnemonic.all : List Mnemonic :=
  [.ldr, .str, .movr, .rdcsr, .wrcsr, .clrf, .cinit, .madd, .msub, .mmul, .minv, .mexp, .mkp, .mkinf, .movp, .pgx, .pgy, .ptinf,
    .pchk, .pneg, .padd, .pdbl, .smul, .pord, .encf, .decf]

/-- The `op` column (30_encoding.md R75). -/
def Mnemonic.opcode : Mnemonic → Nat
  | .ldr => 0x01
  | .str => 0x02
  | .movr => 0x03
  | .rdcsr => 0x04
  | .wrcsr => 0x05
  | .clrf => 0x06
  | .cinit => 0x08
  | .madd => 0x10
  | .msub => 0x11
  | .mmul => 0x12
  | .minv => 0x13
  | .mexp => 0x14
  | .mkp => 0x18
  | .mkinf => 0x19
  | .movp => 0x1A
  | .pgx => 0x1B
  | .pgy => 0x1C
  | .ptinf => 0x1D
  | .pchk => 0x20
  | .pneg => 0x21
  | .padd => 0x22
  | .pdbl => 0x23
  | .smul => 0x24
  | .pord => 0x25
  | .encf => 0x28
  | .decf => 0x29

/-- The `f1` column: false where the map shows `-` (30_encoding.md R75). -/
def Mnemonic.usesF1 : Mnemonic → Bool
  | .str | .clrf | .cinit => false
  | .ldr | .movr | .rdcsr | .wrcsr | .madd | .msub | .mmul | .minv | .mexp => true
  | .mkp | .mkinf | .movp | .pgx | .pgy | .ptinf => true
  | .pchk | .pneg | .padd | .pdbl | .smul | .pord | .encf | .decf => true

/-- The `f2` column (30_encoding.md R75). -/
def Mnemonic.usesF2 : Mnemonic → Bool
  | .ldr | .clrf | .mkinf => false
  | .str | .movr | .rdcsr | .wrcsr | .cinit | .madd | .msub | .mmul | .minv | .mexp => true
  | .mkp | .movp | .pgx | .pgy | .ptinf => true
  | .pchk | .pneg | .padd | .pdbl | .smul | .pord | .encf | .decf => true

/-- The `f3` column (30_encoding.md R75). -/
def Mnemonic.usesF3 : Mnemonic → Bool
  | .madd | .msub | .mmul | .mexp | .mkp | .padd | .smul => true
  | .ldr | .str | .movr | .rdcsr | .wrcsr | .clrf | .cinit | .minv => false
  | .mkinf | .movp | .pgx | .pgy | .ptinf => false
  | .pchk | .pneg | .pdbl | .pord | .encf | .decf => false

/-- The `needs CFG` column (30_encoding.md R75), the computing commands (60_exceptions.md R232). -/
def Mnemonic.needsCfg : Mnemonic → Bool
  | .madd | .msub | .mmul | .minv | .mexp => true
  | .pchk | .pneg | .padd | .pdbl | .smul | .pord => true
  | .encf | .decf => true
  | .ldr | .str | .movr | .rdcsr | .wrcsr | .clrf | .cinit => false
  | .mkp | .mkinf | .movp | .pgx | .pgy | .ptinf => false

/-- The commands that execute while a fault is pending (30_encoding.md R86). -/
def Mnemonic.runsFaulted : Mnemonic → Bool
  | .str | .rdcsr | .clrf => true
  | .ldr | .movr | .wrcsr | .cinit | .madd | .msub | .mmul | .minv | .mexp => false
  | .mkp | .mkinf | .movp | .pgx | .pgy | .ptinf => false
  | .pchk | .pneg | .padd | .pdbl | .smul | .pord | .encf | .decf => false

/-- The command with a given opcode, if the map has one; every other opcode is illegal (30_encoding.md R76). -/
def Mnemonic.ofOpcode (op : Nat) : Option Mnemonic :=
  Mnemonic.all.find? fun m => m.opcode == op

/-! ## The fields of a word -/

/-- `v[lo+n-1:lo]` (00_scope.md R8). -/
def Word.field (w : Word) (lo n : Nat) : Nat := (w.toNat >>> lo) % 2 ^ n

/-- `op = w[31:26]` (30_encoding.md R71). -/
def Word.op (w : Word) : Nat := Word.field w 26 6

/-- `f1 = w[25:22]` as a register index (30_encoding.md R71, R74). -/
def Word.f1 (w : Word) : Fin 16 := ⟨Word.field w 22 4, Nat.mod_lt _ (by decide)⟩

/-- `f2 = w[21:18]` (30_encoding.md R71, R74). -/
def Word.f2 (w : Word) : Fin 16 := ⟨Word.field w 18 4, Nat.mod_lt _ (by decide)⟩

/-- `f3 = w[17:14]` (30_encoding.md R71, R74). -/
def Word.f3 (w : Word) : Fin 16 := ⟨Word.field w 14 4, Nat.mod_lt _ (by decide)⟩

/-- `res = w[13:0]`, which must be 0 (30_encoding.md R71, R72). -/
def Word.res (w : Word) : Nat := Word.field w 0 14

/-- The word with the given fields and a zero `res` (30_encoding.md R71). -/
def Word.pack (op : Nat) (f1 f2 f3 : Fin 16) : Word :=
  BitVec.ofNat 32 (op * 2 ^ 26 + f1.val * 2 ^ 22 + f2.val * 2 ^ 18 + f3.val * 2 ^ 14)

/-! ## Framing of the command channel -/

/-- A word is followed by a data beat exactly when its `op` is LDR's, whatever its other bits are and whether or not it is legal
(30_encoding.md R77; 20_memory.md R51). -/
def Word.hasBeat (w : Word) : Bool := Word.op w == Mnemonic.opcode .ldr

/-- The command word the core takes from a unit in word position: the unit itself where it has 32 bits, and a free value where it is
wider, as only a beat can be (70_reset_and_hazards.md R261; log 19). -/
def wordOfUnit (u : Nat) : Word := if u < 2 ^ 32 then BitVec.ofNat 32 u else Config.wordOfWideUnit u

/-- What the front of the command channel holds, when a command word is expected there. -/
inductive Framed
  /-- Nothing has arrived. -/
  | nothing
  /-- A unit that is neither a 32-bit word nor a `W`-bit beat, or a unit in beat position that is not a `W`-bit beat (log 4). -/
  | misfit
  /-- A word that needs a beat, which has not arrived (10_state.md R39(a)). -/
  | awaiting (w : Word)
  /-- A whole command, and the units after it. `beat` is 0 where the command has none; only LDR's decoding reads it. -/
  | command (w : Word) (beat : Nat) (rest : List Nat)
  deriving DecidableEq, Repr

/-- Takes one command from the front of the channel. A unit is a plain natural: the core cannot tell a beat from a word
(20_memory.md R51). -/
def frame (W : Nat) : List Nat → Framed
  | [] => .nothing
  | u :: rest =>
    if u < 2 ^ 32 ∨ u < 2 ^ W then
      if Word.hasBeat (wordOfUnit u) then
        match rest with
        | [] => .awaiting (wordOfUnit u)
        | b :: rest' => if b < 2 ^ W then .command (wordOfUnit u) b rest' else .misfit
      else .command (wordOfUnit u) 0 rest
    else .misfit

/-! ## The decoder -/

/-- Why a word, or a list of units, is no command. The first six are the spec's `Illegal` (30_encoding.md R82); the last three are
about units that hold no whole command. -/
inductive Reject
  /-- `op` is not in the map: R76. -/
  | unassignedOpcode
  /-- `res` is not 0: R72. -/
  | reservedBits
  /-- A field the command does not use is not 0: R73. -/
  | unusedField
  /-- RDCSR of CSR 9 to 15: R79. -/
  | absentCsr
  /-- WRCSR of a CSR other than CTRL: R79. -/
  | readOnlyCsr
  /-- CINIT with a base above 11: R80. -/
  | blockBase
  /-- No unit at all. -/
  | noUnit
  /-- A unit too wide for its place. -/
  | misfitUnit
  /-- An LDR word without its beat: R77. -/
  | missingBeat
  deriving DecidableEq, Repr

/-- The command a legal word of this row stands for. -/
def Mnemonic.assemble (f1 f2 f3 : Fin 16) (beat : Nat) : Mnemonic → Instr
  | .ldr => .ldr f1 beat
  | .str => .str f2
  | .movr => .movr f1 f2
  | .rdcsr => .rdcsr f1 f2
  | .wrcsr => .wrcsr f1 f2
  | .clrf => .clrf
  | .cinit => .cinit f2
  | .madd => .madd f1 f2 f3
  | .msub => .msub f1 f2 f3
  | .mmul => .mmul f1 f2 f3
  | .minv => .minv f1 f2
  | .mexp => .mexp f1 f2 f3
  | .mkp => .mkp f1 f2 f3
  | .mkinf => .mkinf f1
  | .movp => .movp f1 f2
  | .pgx => .pgx f1 f2
  | .pgy => .pgy f1 f2
  | .ptinf => .ptinf f1 f2
  | .pchk => .pchk f1 f2
  | .pneg => .pneg f1 f2
  | .padd => .padd f1 f2 f3
  | .pdbl => .pdbl f1 f2
  | .smul => .smul f1 f2 f3
  | .pord => .pord f1 f2
  | .encf => .encf f1 f2
  | .decf => .decf f1 f2

/-- `Decode`, total on every 32-bit word, its tests in the order of 30_encoding.md R82. `beat` is the data beat of an LDR word and is
read for nothing else. -/
def decode (w : Word) (beat : Nat) : Except Reject Instr :=
  match Mnemonic.ofOpcode (Word.op w) with
  | none => .error .unassignedOpcode
  | some m =>
    if Word.res w ≠ 0 then .error .reservedBits
    else if (m.usesF1 = false ∧ Word.f1 w ≠ 0) ∨ (m.usesF2 = false ∧ Word.f2 w ≠ 0) ∨ (m.usesF3 = false ∧ Word.f3 w ≠ 0) then
      .error .unusedField
    else if m = .rdcsr ∧ Config.lastCsr < (Word.f2 w).val then .error .absentCsr
    else if m = .wrcsr ∧ (Word.f1 w).val ≠ Config.ctrlCsr then .error .readOnlyCsr
    else if m = .cinit ∧ Config.lastBase < (Word.f2 w).val then .error .blockBase
    else .ok (m.assemble (Word.f1 w) (Word.f2 w) (Word.f3 w) beat)

/-- The decoder on channel units: the first command and the units after it. Total on every list, rejecting by name. -/
def decodeUnits (W : Nat) (us : List Nat) : Except Reject (Instr × List Nat) :=
  match frame W us with
  | .nothing => .error .noUnit
  | .misfit => .error .misfitUnit
  | .awaiting _ => .error .missingBeat
  | .command w beat rest =>
    match decode w beat with
    | .error e => .error e
    | .ok i => .ok (i, rest)

/-! ## The encoder -/

/-- The `f1` field of a command; 0 where unused (30_encoding.md R73, R90). -/
def Instr.f1 : Instr → Fin 16
  | .ldr rd _ | .movr rd _ | .rdcsr rd _ => rd
  | .wrcsr csr _ => csr
  | .madd rd _ _ | .msub rd _ _ | .mmul rd _ _ | .minv rd _ | .mexp rd _ _ => rd
  | .mkp pd _ _ | .mkinf pd | .movp pd _ => pd
  | .pgx rd _ | .pgy rd _ | .ptinf rd _ | .pchk rd _ | .pord rd _ => rd
  | .pneg pd _ | .padd pd _ _ | .pdbl pd _ | .smul pd _ _ | .encf pd _ | .decf pd _ => pd
  | .str _ | .clrf | .cinit _ => 0

/-- The `f2` field of a command; 0 where unused. -/
def Instr.f2 : Instr → Fin 16
  | .str rs | .movr _ rs | .wrcsr _ rs => rs
  | .rdcsr _ csr => csr
  | .cinit base => base
  | .madd _ rs1 _ | .msub _ rs1 _ | .mmul _ rs1 _ | .minv _ rs1 | .mexp _ rs1 _ => rs1
  | .mkp _ rx _ => rx
  | .movp _ ps | .pgx _ ps | .pgy _ ps | .ptinf _ ps | .pchk _ ps | .pord _ ps => ps
  | .pneg _ ps | .padd _ ps _ | .pdbl _ ps | .encf _ ps | .decf _ ps => ps
  | .smul _ rk _ => rk
  | .ldr _ _ | .clrf | .mkinf _ => 0

/-- The `f3` field of a command; 0 where unused. -/
def Instr.f3 : Instr → Fin 16
  | .madd _ _ rs2 | .msub _ _ rs2 | .mmul _ _ rs2 | .mexp _ _ rs2 => rs2
  | .mkp _ _ ry => ry
  | .padd _ _ ps2 => ps2
  | .smul _ _ ps => ps
  | .ldr _ _ | .str _ | .movr _ _ | .rdcsr _ _ | .wrcsr _ _ | .clrf | .cinit _ => 0
  | .minv _ _ | .mkinf _ | .movp _ _ | .pgx _ _ | .pgy _ _ | .ptinf _ _ => 0
  | .pchk _ _ | .pneg _ _ | .pdbl _ _ | .pord _ _ | .encf _ _ | .decf _ _ => 0

/-- The command word of a command (30_encoding.md R71, R75). -/
def encodeWord (i : Instr) : Word := Word.pack i.mnemonic.opcode i.f1 i.f2 i.f3

/-- The data beats of a command: one for LDR, none for any other (30_encoding.md R77). -/
def Instr.beats : Instr → List Nat
  | .ldr _ beat => [beat]
  | .str _ | .movr _ _ | .rdcsr _ _ | .wrcsr _ _ | .clrf | .cinit _ => []
  | .madd _ _ _ | .msub _ _ _ | .mmul _ _ _ | .minv _ _ | .mexp _ _ _ => []
  | .mkp _ _ _ | .mkinf _ | .movp _ _ | .pgx _ _ | .pgy _ _ | .ptinf _ _ => []
  | .pchk _ _ | .pneg _ _ | .padd _ _ _ | .pdbl _ _ | .smul _ _ _ | .pord _ _ | .encf _ _ | .decf _ _ => []

/-- The channel units of a command, first unit first (30_encoding.md R70, R77). -/
def encode (i : Instr) : List Nat := (encodeWord i).toNat :: i.beats

/-! ## The host's numbering of an instruction's bits -/

/-- The channel units of an instruction whose bits are `w`, numbered as the opcode table numbers them: bits 31 to 0 are the command
word, and an LDR word's beat follows from bit 32 up, `W` bits of it (log 16). Bits from `nbits` up are 0. -/
def tableUnits (W nbits w : Nat) : List Nat :=
  let v := w % 2 ^ nbits
  let u := v % 2 ^ 32
  if Word.hasBeat (BitVec.ofNat 32 u) then [u, v / 2 ^ 32 % 2 ^ W] else [u]

/-- The instruction the decoder reads from a table word. -/
def decodeTableWord (nbits w : Nat) : Option Instr :=
  match decodeUnits Config.referenceWidth (tableUnits Config.referenceWidth nbits w) with
  | .ok (i, []) => some i
  | _ => none

end Sys2Proof
end

