-- ==== Sys2Proof/Machine/State.lean ====
section
/-! DEFINITION. What the machine holds (10_state.md, its summary R41; 70_reset_and_hazards.md R260), the fault kinds of the spec, and the
reasons a step can stop. Every value is a natural, as the spec's values are integers that no command reads as bits (00_scope.md R7); that
each lies below `2^W` is part of the invariant in Safety.lean (log 17). -/

namespace Sys2Proof.Machine

/-- A point value: the identity or an affine pair (00_scope.md R13). -/
inductive Point
  | inf
  | aff (x y : Nat)
  deriving DecidableEq, Repr

/-- A point register, with its three fields (10_state.md R22). -/
structure PointReg where
  inf : Bool
  x : Nat
  y : Nat
  deriving DecidableEq, Repr

/-- The fault kinds a command may raise (00_scope.md R15; 60_exceptions.md R230). Raising one is the spec's own exception: the machine
goes on in a next state. -/
inductive Raise
  | illegalCommand
  | notConfigured
  | invalidModulus
  | noInverse
  | orderOverflow
  | domainViolation
  deriving DecidableEq, Repr

/-- The receive state of the command channel (10_state.md R39(a)). -/
inductive Receive
  | idle
  /-- An LDR word has been taken and its beat has not arrived. -/
  | awaitBeat (w : Word)
  deriving DecidableEq, Repr

/-- Why there is no next state. The first three are the waits of 20_memory.md R62, which "a model must represent ... as the absence of
a step"; the last is a breach of the host's duty of R51. None is a fault kind of the spec: those are `Raise`. -/
inductive Fault
  /-- Raised by `step` when the core is idle and no command word has arrived (20_memory.md R56, R62). Safe: the core waits. -/
  | waitCommand
  /-- Raised by `step` in receive state `awaitBeat` when no beat has arrived (20_memory.md R62(a)). Safe: the core waits. -/
  | waitBeat
  /-- Raised by STR when the host does not accept the beat (20_memory.md R62(b)). Safe: the core waits. -/
  | waitAccept
  /-- Raised by `step` when the next unit is neither a 32-bit word nor a `W`-bit beat, or is no `W`-bit beat where one is awaited. No host
  that keeps 20_memory.md R51 and R55 offers one, resets included, and the spec gives the core no behaviour for it. Safe (log 4). -/
  | misfitUnit
  deriving DecidableEq, Repr

/-- Why an instruction has no meaning. -/
inductive Refusal
  /-- Raised by a dispatch arm of an instruction that has no meaning yet; no arm of this model does. Safe. -/
  | notModelled (mnemonic : String)
  deriving DecidableEq, Repr

/-- The machine: the architectural and hidden state of 10_state.md, then the instance parameter and the host's side of the channels. -/
structure State where
  /-- `R0` to `R15` (10_state.md R20). -/
  r : Vector Nat 16
  /-- `P0` to `P15` (10_state.md R22). -/
  p : Vector PointReg 16
  /-- STATUS.CFG (10_state.md R26). -/
  cfg : Bool
  /-- STATUS.FAULT (10_state.md R27). -/
  fault : Bool
  /-- STATUS.FCODE (10_state.md R28). -/
  fcode : BitVec 4
  /-- FCMD (10_state.md R30). -/
  fcmd : Word
  /-- CTRL.DVCHK (10_state.md R29). -/
  dvchk : Bool
  /-- CP, the modulus `p` (10_state.md R31). -/
  cp : Nat
  /-- CA, the coefficient `A` (10_state.md R32). -/
  ca : Nat
  /-- CB, the coefficient `B` (10_state.md R33). -/
  cb : Nat
  /-- CL, `l mod p` (10_state.md R34). -/
  cl : Nat
  /-- The receive state of the command channel (10_state.md R39(a)). -/
  rx : Receive
  /-- The instance parameter `W` (00_scope.md R5). Nothing changes it (log 1). -/
  width : Nat
  /-- The units the host has offered on the command channel and the core has not taken, oldest first (20_memory.md R51; log 3). -/
  units : List Nat
  /-- Whether the host accepts a response beat now (20_memory.md R60, R62; log 6). -/
  ready : Bool
  /-- The response beats the host has accepted, oldest first (20_memory.md R52, R61; log 6). -/
  sent : List Nat
  deriving DecidableEq, Repr

/-- The machine of width `W` right after reset, with nothing on its channels (70_reset_and_hazards.md R260). -/
def State.resetAt (W : Nat) : State where
  r := Vector.replicate 16 0
  p := Vector.replicate 16 { inf := true, x := 0, y := 0 }
  cfg := false
  fault := false
  fcode := 0
  fcmd := 0
  dvchk := false
  cp := 0
  ca := 0
  cb := 0
  cl := 0
  rx := .idle
  width := W
  units := []
  ready := true
  sent := []

/-- The machine right after reset, at the spec's reference width (70_reset_and_hazards.md R260; log 1). -/
def State.reset : State := State.resetAt Config.referenceWidth

end Sys2Proof.Machine
end

