-- ==== Sys2Proof/Machine/Field.lean ====
section
/-! DEFINITION. Arithmetic modulo `p` on unbounded integers: the remainder, the inverse by the extended Euclidean algorithm, and
exponentiation by squaring (00_scope.md R7, R9 to R12; 40_field_arithmetic.md R104, R105, R107). -/

namespace Sys2Proof.Machine

/-- `a mod n`, the remainder in `[0, n)` of an integer (00_scope.md R9). -/
def modP (a : Int) (n : Nat) : Nat := (a % (n : Int)).toNat

/-- The extended Euclidean algorithm on remainders `r0`, `r1` with their coefficients `t0`, `t1`: the coefficient of the last nonzero
remainder. The remainder `r1` falls at every step, so `r1 + 1` steps suffice (log 15). -/
def euclid : (steps r0 r1 : Nat) → (t0 t1 : Int) → Int
  | 0, _, _, t0, _ => t0
  | steps + 1, r0, r1, t0, t1 =>
    if r1 = 0 then t0 else euclid steps r1 (r0 % r1) t1 (t0 - ((r0 / r1 : Nat) : Int) * t1)

/-- `inv_p(a)` (00_scope.md R11): the inverse of `a mod p`, or NoInverse when `a mod p` and `p` are not coprime. The value is the
coefficient that the extended Euclidean algorithm computes (40_field_arithmetic.md R104; 90_conflicts.md C2). -/
def invP (p : Nat) (a : Int) : Except Raise Nat :=
  if Nat.gcd (modP a p) p = 1 then .ok (modP (euclid (modP a p + 1) p (modP a p) 0 1) p)
  else .error .noInverse

/-- The loop of 40_field_arithmetic.md R105 on `e`, `b`, `r`. The exponent falls at every step, so `e` steps suffice (log 15). -/
def powLoop (p : Nat) : (steps e b r : Nat) → Nat
  | 0, _, _, r => r
  | steps + 1, e, b, r =>
    if e = 0 then r
    else powLoop p steps (e >>> 1) ((b * b) % p) (if e % 2 = 1 then (r * b) % p else r)

/-- Modular exponentiation by squaring, from a reduced base and a raw exponent (40_field_arithmetic.md R105). -/
def powMod (p b e : Nat) : Nat := powLoop p e e b 1 % p

end Sys2Proof.Machine
end

