-- ==== Sys2Proof/Machine/Curve.lean ====
section
/-! DEFINITION. The functions the point commands share: the curve a command reads, canonical points, membership, the group law, the
double-and-add loop, the order scan, curve construction (41_curve_config.md; 42_point_ops.md; 43_scalar_and_order.md). -/

namespace Sys2Proof.Machine

/-- `p`, `A`, `B` and `l`, as the CSRs CP, CA, CB and CL hold them (00_scope.md R10). -/
structure Curve where
  p : Nat
  a : Nat
  b : Nat
  l : Nat
  deriving DecidableEq, Repr

/-- `canon(v)` (00_scope.md R14). -/
def Point.canon (p : Nat) : Point → Point
  | .inf => .inf
  | .aff x y => .aff (x % p) (y % p)

/-- `OnCurve(v)` (42_point_ops.md R140). -/
def onCurve (c : Curve) : Point → Bool
  | .inf => true
  | .aff x y => modP ((y : Int) * y - (x : Int) * x * x - c.a * x - c.b) c.p == 0

/-- The end of the group law: the sum from the slope `m` (42_point_ops.md R142). -/
def chord (p : Nat) (m x1 y1 x2 : Nat) : Point :=
  let x3 := modP ((m : Int) * m - x1 - x2) p
  .aff x3 (modP ((m : Int) * ((x1 : Int) - x3) - y1) p)

/-- The group law `ECADD`, its tests in the order of 42_point_ops.md R142. -/
def ecadd (c : Curve) : Point → Point → Except Raise Point
  | .inf, q => .ok q
  | .aff x1 y1, .inf => .ok (.aff x1 y1)
  | .aff x1 y1, .aff x2 y2 =>
    if x1 = x2 ∧ (y1 + y2) % c.p = 0 then .ok .inf
    else if x1 = x2 ∧ y1 = y2 then
      match invP c.p (2 * (y1 : Int)) with
      | .error e => .error e
      | .ok iv => .ok (chord c.p (modP ((3 * (x1 : Int) * x1 + c.a) * iv) c.p) x1 y1 x2)
    else
      match invP c.p ((x2 : Int) - x1) with
      | .error e => .error e
      | .ok iv => .ok (chord c.p (modP (((y2 : Int) - y1) * iv) c.p) x1 y1 x2)

/-- The loop of SMUL on `k`, `addend`, `result`, with the doubling in every iteration, the last one included (43_scalar_and_order.md
R170; 92_eei_decisions.md D20). The scalar falls at every step, so `k` steps suffice (log 15). -/
def smulLoop (c : Curve) : (steps k : Nat) → (addend result : Point) → Except Raise Point
  | 0, _, _, result => .ok result
  | steps + 1, k, addend, result =>
    if k = 0 then .ok result
    else
      match if k % 2 = 1 then ecadd c addend result else .ok result with
      | .error e => .error e
      | .ok result' =>
        match ecadd c addend addend with
        | .error e => .error e
        | .ok addend' => smulLoop c steps (k >>> 1) addend' result'

/-- The loop of PORD on the running point `q` and the counter `n`. `left` is how many more additions the counter may make before it
stands at its limit, so `left = 0` is the test `n = 2^W - 1` of 43_scalar_and_order.md R175, R176. -/
def orderLoop (c : Curve) (g : Point) : (left : Nat) → (q : Point) → (n : Nat) → Except Raise Nat
  | 0, q, n => if q = .inf then .ok n else .error .orderOverflow
  | left + 1, q, n =>
    if q = .inf then .ok n
    else
      match ecadd c q g with
      | .error e => .error e
      | .ok q' => orderLoop c g left q' (n + 1)

/-- The order scan of a canonical point on a core of width `W`: the counter starts at 1 and its limit is `2^W - 1`
(43_scalar_and_order.md R175, R176). -/
def orderScan (c : Curve) (W : Nat) (g : Point) : Except Raise Nat := orderLoop c g (2 ^ W - 1 - 1) g 1

/-- The curve that CINIT computes from its five integers, or the fault it raises (41_curve_config.md R120 to R124). -/
def construct (pv an ad bn bd : Nat) : Except Raise Curve :=
  if pv ≤ 3 then .error .invalidModulus
  else
    match invP pv ad with
    | .error e => .error e
    | .ok iad =>
      match invP pv bd with
      | .error e => .error e
      | .ok ibd =>
        .ok { p := pv
              a := (an * iad * Nat.lcm ad bd ^ 4) % pv
              b := (bn * ibd * Nat.lcm ad bd ^ 6) % pv
              l := Nat.lcm ad bd % pv }

/-- A point in fractional form with a scaling factor `k`: `x·k²`, `y·k³` (44_fractional_codec.md R190, R191). -/
def Point.scale (p k : Nat) : Point → Point
  | .inf => .inf
  | .aff x y => .aff ((x * k ^ 2) % p) ((y * k ^ 3) % p)

/-- `fromFractional` of a canonical point: the inverse of `l` is computed only for an affine point (44_fractional_codec.md R191;
92_eei_decisions.md D23). -/
def fromFractional (c : Curve) : Point → Except Raise Point
  | .inf => .ok .inf
  | .aff x y =>
    match invP c.p c.l with
    | .error e => .error e
    | .ok li => .ok (Point.scale c.p li (.aff x y))

/-- The negation of a canonical point (42_point_ops.md R146). -/
def Point.neg (p : Nat) : Point → Point
  | .inf => .inf
  | .aff x y => .aff x (modP ((p : Int) - y) p)

end Sys2Proof.Machine
end

