-- ==== Sys2Proof/Machine/Flags.lean ====
section
/-! DEFINITION. The 32-bit control and status words as software reads them, the fault codes, and the one flag a command writes on its
own account (10_state.md R25 to R30, R35, R36; 60_exceptions.md R230). -/

namespace Sys2Proof.Machine

/-- The FCODE of a fault kind (60_exceptions.md R230). -/
def Raise.code : Raise → BitVec 4
  | .illegalCommand => 1
  | .notConfigured => 2
  | .invalidModulus => 3
  | .noInverse => 4
  | .orderOverflow => 5
  | .domainViolation => 6

/-- STATUS: `{zeros[31:8], FCODE[7:4], 00[3:2], FAULT[1], CFG[0]}` (10_state.md R25). -/
def State.statusWord (s : State) : Word :=
  (0 : BitVec 24) ++ s.fcode ++ (0 : BitVec 2) ++ BitVec.ofBool s.fault ++ BitVec.ofBool s.cfg

/-- CTRL: DVCHK in bit 0, the other bits read 0 (10_state.md R29). -/
def State.ctrlWord (s : State) : Word := (0 : BitVec 31) ++ BitVec.ofBool s.dvchk

/-- WIDTH reads the parameter `W` as an unsigned 32-bit value (10_state.md R36; log 2). -/
def State.widthWord (s : State) : Word := BitVec.ofNat 32 s.width

/-- Bit 0 of a scalar value, the bit WRCSR writes to DVCHK (45_interface_commands.md R204). -/
def bit0 (v : Nat) : Bool := v % 2 == 1

/-- How PCHK and PTINF write a truth value (92_eei_decisions.md D39). -/
def boolValue (b : Bool) : Nat := if b then 1 else 0

end Sys2Proof.Machine
end

