-- ==== Sys2Proof/Machine/Operands.lean ====
section
/-! DEFINITION. The operand forms (30_encoding.md R74): a scalar register, a point register, a CSR number, a CINIT block, each with the
way a command reads it (00_scope.md R13, R14). -/

namespace Sys2Proof.Machine

/-- `R[i]` (00_scope.md R13). -/
def State.reg (s : State) (i : RegIdx) : Nat := s.r[i]

/-- The three fields of point register `i` (10_state.md R22). -/
def State.pt (s : State) (i : PtIdx) : PointReg := s.p[i]

/-- The point value a register denotes (00_scope.md R13). -/
def PointReg.value (q : PointReg) : Point := if q.inf then .inf else .aff q.x q.y

/-- How a point value is stored (00_scope.md R13). -/
def Point.toReg : Point → PointReg
  | .inf => { inf := true, x := 0, y := 0 }
  | .aff x y => { inf := false, x := x, y := y }

/-- `P[i]` as a point value (00_scope.md R13). -/
def State.point (s : State) (i : PtIdx) : Point := (s.pt i).value

/-- `red(R[i])`: a field operand, reduced as it is read (00_scope.md R10, R14). -/
def State.fieldReg (s : State) (i : RegIdx) : Nat := s.reg i % s.cp

/-- `canon(P[i])`: a point operand of a computing command (00_scope.md R14). -/
def State.canonPt (s : State) (i : PtIdx) : Point := (s.point i).canon s.cp

/-- The curve configuration, read when the command starts (00_scope.md R10). -/
def State.curve (s : State) : Curve := { p := s.cp, a := s.ca, b := s.cb, l := s.cl }

/-- `CSR[n]`, zero-extended; none for the numbers 9 to 15, which do not exist (10_state.md R24; 45_interface_commands.md R203). -/
def State.csr (s : State) (n : CsrNum) : Option Nat :=
  match n.val with
  | 0 => some s.statusWord.toNat
  | 1 => some s.ctrlWord.toNat
  | 2 => some s.fcmd.toNat
  | 3 => some s.cp
  | 4 => some s.ca
  | 5 => some s.cb
  | 6 => some s.cl
  | 7 => some Config.idValue.toNat
  | 8 => some s.widthWord.toNat
  | _ => none

end Sys2Proof.Machine
end

