-- ==== Sys2Proof/Machine/Ops.lean ====
section
/-! DEFINITION. The named operations over the registers, the exception entry (the fault commit, 60_exceptions.md R237) and the return from
it (CLRF, 45_interface_commands.md R205), and how a command's result becomes an outcome. -/

namespace Sys2Proof.Machine

/-- `R[i] <- v` (00_scope.md R13). -/
def State.setReg (s : State) (i : RegIdx) (v : Nat) : State := { s with r := s.r.set i.val v }

/-- All three fields of point register `i` (45_interface_commands.md R208). -/
def State.setPtReg (s : State) (i : PtIdx) (q : PointReg) : State := { s with p := s.p.set i.val q }

/-- `P[i] <- v` (00_scope.md R13). -/
def State.setPt (s : State) (i : PtIdx) (v : Point) : State := s.setPtReg i v.toReg

/-- CINIT's commit: CP, CA, CB, CL and STATUS.CFG together (41_curve_config.md R125). -/
def State.setCurve (s : State) (c : Curve) : State :=
  { s with cp := c.p, ca := c.a, cb := c.b, cl := c.l, cfg := true }

/-- TAKING AN EXCEPTION: the fault commit (60_exceptions.md R237). FAULT, FCODE and FCMD are written together, only when no fault is
pending, because the first fault wins (10_state.md R28, R30). Nothing else changes: no vector, no saved pc, no mode. -/
def State.commitFault (s : State) (e : Raise) (w : Word) : State :=
  if s.fault then s else { s with fault := true, fcode := e.code, fcmd := w }

/-- THE RETURN: CLRF clears FAULT, FCODE and FCMD and restores nothing else (45_interface_commands.md R205; 60_exceptions.md R241). -/
def State.clearFault (s : State) : State := { s with fault := false, fcode := 0, fcmd := 0 }

/-- The outcome of a command with word `w` from its result: its writes, or the fault commit on the state before it, which suppresses
every write (00_scope.md R15; 60_exceptions.md R237, R238). -/
def State.conclude (s : State) (w : Word) : Except Raise State → Host.Outcome State Fault Refusal
  | .ok t => .next t
  | .error e => .next (s.commitFault e w)

/-- A computing command: NotConfigured before any operand is examined, then its body (60_exceptions.md R232; 30_encoding.md R85). -/
def State.computing (s : State) (w : Word) (body : State → Except Raise State) : Host.Outcome State Fault Refusal :=
  if s.cfg then s.conclude w (body s) else .next (s.commitFault .notConfigured w)

/-- `DomainCheck(v)` (42_point_ops.md R147). -/
def State.domainCheck (s : State) (v : Point) : Except Raise Unit :=
  if s.dvchk && !onCurve s.curve v then .error .domainViolation else .ok ()

/-- `SendBeat(v)`: the beat joins the response channel if the host accepts it; until then there is no step (00_scope.md R16;
20_memory.md R52, R62). -/
def State.sendBeat (s : State) (v : Nat) : Host.Outcome State Fault Refusal :=
  if s.ready then .next { s with sent := s.sent ++ [v] } else .fault .waitAccept

end Sys2Proof.Machine
end

