-- ==== Sys2Proof/Machine/Codec.lean ====
section
/-! DEFINITION. The fractional codec (44_fractional_codec.md). DVCHK does not apply to it. -/

namespace Sys2Proof.Machine

/-- ENCF (R190). -/
def execEncf (pd ps : PtIdx) (s : State) : Host.Outcome State Fault Refusal :=
  s.computing (encodeWord (.encf pd ps)) fun s => .ok (s.setPt pd ((s.canonPt ps).scale s.cp s.cl))

/-- DECF (R191): NoInverse if `l` is not invertible, which only an affine operand finds out. -/
def execDecf (pd ps : PtIdx) (s : State) : Host.Outcome State Fault Refusal :=
  s.computing (encodeWord (.decf pd ps)) fun s =>
    match fromFractional s.curve (s.canonPt ps) with
    | .ok v => .ok (s.setPt pd v)
    | .error e => .error e

end Sys2Proof.Machine
end

