-- ==== Sys2Proof/Machine/CurveConfig.lean ====
section
/-! DEFINITION. Curve construction, the one command that writes the configuration (41_curve_config.md). -/

namespace Sys2Proof.Machine

/-- CINIT (R120 to R125): the raw block `R[b]` to `R[b+4]`, all checks, then one commit. A block that leaves the register file raises
IllegalCommand (30_encoding.md R80), which decoding does first (log 12). -/
def execCinit (base : RegIdx) (s : State) : Host.Outcome State Fault Refusal :=
  s.conclude (encodeWord (.cinit base))
    (if Config.lastBase < base.val then .error .illegalCommand
    else
      match construct (s.reg base) (s.reg (base + 1)) (s.reg (base + 2)) (s.reg (base + 3)) (s.reg (base + 4)) with
      | .ok c => .ok (s.setCurve c)
      | .error e => .error e)

end Sys2Proof.Machine
end

