-- ==== Sys2Proof/Machine/FieldArith.lean ====
section
/-! DEFINITION. The field arithmetic commands (40_field_arithmetic.md): each needs a configuration, reads its field operands reduced, and
writes one scalar register with a value below `p` (R100). -/

namespace Sys2Proof.Machine

/-- MADD (R101). -/
def execMadd (rd rs1 rs2 : RegIdx) (s : State) : Host.Outcome State Fault Refusal :=
  s.computing (encodeWord (.madd rd rs1 rs2)) fun s => .ok (s.setReg rd ((s.fieldReg rs1 + s.fieldReg rs2) % s.cp))

/-- MSUB (R102): an integer subtraction, then the remainder. -/
def execMsub (rd rs1 rs2 : RegIdx) (s : State) : Host.Outcome State Fault Refusal :=
  s.computing (encodeWord (.msub rd rs1 rs2)) fun s =>
    .ok (s.setReg rd (modP ((s.fieldReg rs1 : Int) - s.fieldReg rs2) s.cp))

/-- MMUL (R103): the full product, reduced. -/
def execMmul (rd rs1 rs2 : RegIdx) (s : State) : Host.Outcome State Fault Refusal :=
  s.computing (encodeWord (.mmul rd rs1 rs2)) fun s => .ok (s.setReg rd ((s.fieldReg rs1 * s.fieldReg rs2) % s.cp))

/-- MINV (R104): the inverse, or NoInverse with the destination unchanged. -/
def execMinv (rd rs1 : RegIdx) (s : State) : Host.Outcome State Fault Refusal :=
  s.computing (encodeWord (.minv rd rs1)) fun s =>
    match invP s.cp (s.reg rs1) with
    | .ok b => .ok (s.setReg rd b)
    | .error e => .error e

/-- MEXP (R105): the base reduced, the exponent raw. -/
def execMexp (rd base exp : RegIdx) (s : State) : Host.Outcome State Fault Refusal :=
  s.computing (encodeWord (.mexp rd base exp)) fun s => .ok (s.setReg rd (powMod s.cp (s.fieldReg base) (s.reg exp)))

end Sys2Proof.Machine
end

