-- ==== Sys2Proof/Machine/Interface.lean ====
section
/-! DEFINITION. The interface, transfer and CSR commands (45_interface_commands.md). None needs a configuration and none reduces a
value. -/

namespace Sys2Proof.Machine

/-- LDR (R200): the beat, unchanged. -/
def execLdr (rd : RegIdx) (beat : Nat) (s : State) : Host.Outcome State Fault Refusal := .next (s.setReg rd beat)

/-- STR (R201): one response beat, when the host accepts it. -/
def execStr (rs : RegIdx) (s : State) : Host.Outcome State Fault Refusal := s.sendBeat (s.reg rs)

/-- MOVR (R202). -/
def execMovr (rd rs : RegIdx) (s : State) : Host.Outcome State Fault Refusal := .next (s.setReg rd (s.reg rs))

/-- RDCSR (R203); a CSR number that does not exist raises IllegalCommand (10_state.md R24), which decoding does first (log 12). -/
def execRdcsr (rd : RegIdx) (csr : CsrNum) (s : State) : Host.Outcome State Fault Refusal :=
  s.conclude (encodeWord (.rdcsr rd csr))
    (match s.csr csr with
      | some v => .ok (s.setReg rd v)
      | none => .error .illegalCommand)

/-- WRCSR (R204): bit 0 of the register goes to DVCHK; a CSR other than CTRL raises IllegalCommand, which decoding does first (log 12). -/
def execWrcsr (csr : CsrNum) (rs : RegIdx) (s : State) : Host.Outcome State Fault Refusal :=
  s.conclude (encodeWord (.wrcsr csr rs))
    (if csr.val = Config.ctrlCsr then .ok { s with dvchk := bit0 (s.reg rs) } else .error .illegalCommand)

/-- CLRF (R205). -/
def execClrf (s : State) : Host.Outcome State Fault Refusal := .next s.clearFault

/-- MKP (R206): the raw pair, neither checked nor reduced. -/
def execMkp (pd : PtIdx) (rx ry : RegIdx) (s : State) : Host.Outcome State Fault Refusal :=
  .next (s.setPt pd (.aff (s.reg rx) (s.reg ry)))

/-- MKINF (R207). -/
def execMkinf (pd : PtIdx) (s : State) : Host.Outcome State Fault Refusal := .next (s.setPt pd .inf)

/-- MOVP (R208): all three fields, unreduced. -/
def execMovp (pd ps : PtIdx) (s : State) : Host.Outcome State Fault Refusal := .next (s.setPtReg pd (s.pt ps))

/-- PGX (R209): the stored coordinate. -/
def execPgx (rd : RegIdx) (ps : PtIdx) (s : State) : Host.Outcome State Fault Refusal := .next (s.setReg rd (s.pt ps).x)

/-- PGY (R210): the stored coordinate. -/
def execPgy (rd : RegIdx) (ps : PtIdx) (s : State) : Host.Outcome State Fault Refusal := .next (s.setReg rd (s.pt ps).y)

/-- PTINF (R211). -/
def execPtinf (rd : RegIdx) (ps : PtIdx) (s : State) : Host.Outcome State Fault Refusal :=
  .next (s.setReg rd (boolValue (s.pt ps).inf))

end Sys2Proof.Machine
end

