-- ==== Sys2Proof/Machine/PointOps.lean ====
section
/-! DEFINITION. The point commands: membership, negation, addition, doubling (42_point_ops.md). Every point operand is read
canonical (00_scope.md R14). -/

namespace Sys2Proof.Machine

/-- PCHK (R141). DVCHK does not apply. -/
def execPchk (rd : RegIdx) (ps : PtIdx) (s : State) : Host.Outcome State Fault Refusal :=
  s.computing (encodeWord (.pchk rd ps)) fun s => .ok (s.setReg rd (boolValue (onCurve s.curve (s.canonPt ps))))

/-- PNEG (R146). DVCHK does not apply. -/
def execPneg (pd ps : PtIdx) (s : State) : Host.Outcome State Fault Refusal :=
  s.computing (encodeWord (.pneg pd ps)) fun s => .ok (s.setPt pd ((s.canonPt ps).neg s.cp))

/-- PADD (R144): the domain checks on `ps1` and then `ps2` (R147), then the group law (R142). -/
def execPadd (pd ps1 ps2 : PtIdx) (s : State) : Host.Outcome State Fault Refusal :=
  s.computing (encodeWord (.padd pd ps1 ps2)) fun s => do
    s.domainCheck (s.canonPt ps1)
    s.domainCheck (s.canonPt ps2)
    let v ← ecadd s.curve (s.canonPt ps1) (s.canonPt ps2)
    return s.setPt pd v

/-- PDBL (R145): the group law on two equal arguments. -/
def execPdbl (pd ps : PtIdx) (s : State) : Host.Outcome State Fault Refusal :=
  s.computing (encodeWord (.pdbl pd ps)) fun s => do
    s.domainCheck (s.canonPt ps)
    let v ← ecadd s.curve (s.canonPt ps) (s.canonPt ps)
    return s.setPt pd v

end Sys2Proof.Machine
end

