-- ==== Sys2Proof/Machine/ScalarOps.lean ====
section
/-! DEFINITION. Scalar multiplication and the order scan (43_scalar_and_order.md). -/

namespace Sys2Proof.Machine

/-- SMUL (R170): the raw scalar, the domain check even for `k = 0`, then double-and-add from `INF`. -/
def execSmul (pd : PtIdx) (rk : RegIdx) (ps : PtIdx) (s : State) : Host.Outcome State Fault Refusal :=
  s.computing (encodeWord (.smul pd rk ps)) fun s => do
    s.domainCheck (s.canonPt ps)
    let v ← smulLoop s.curve (s.reg rk) (s.reg rk) (s.canonPt ps) .inf
    return s.setPt pd v

/-- PORD (R175, R176): the scan by repeated addition, with the counter's limit. -/
def execPord (rd : RegIdx) (ps : PtIdx) (s : State) : Host.Outcome State Fault Refusal :=
  s.computing (encodeWord (.pord rd ps)) fun s => do
    s.domainCheck (s.canonPt ps)
    let n ← orderScan s.curve s.width (s.canonPt ps)
    return s.setReg rd n

end Sys2Proof.Machine
end

