-- ==== Sys2Proof/Machine/Dispatch.lean ====
section
/-! DEFINITION. The dispatch: one direct call of a meaning for each command (`Execute` of 30_encoding.md R85). -/

namespace Sys2Proof.Machine

def exec (i : Instr) (s : State) : Host.Outcome State Fault Refusal :=
  match i with
  | .ldr rd beat => Sys2Proof.Machine.execLdr rd beat s
  | .str rs => Sys2Proof.Machine.execStr rs s
  | .movr rd rs => Sys2Proof.Machine.execMovr rd rs s
  | .rdcsr rd csr => Sys2Proof.Machine.execRdcsr rd csr s
  | .wrcsr csr rs => Sys2Proof.Machine.execWrcsr csr rs s
  | .clrf => Sys2Proof.Machine.execClrf s
  | .cinit base => Sys2Proof.Machine.execCinit base s
  | .madd rd rs1 rs2 => Sys2Proof.Machine.execMadd rd rs1 rs2 s
  | .msub rd rs1 rs2 => Sys2Proof.Machine.execMsub rd rs1 rs2 s
  | .mmul rd rs1 rs2 => Sys2Proof.Machine.execMmul rd rs1 rs2 s
  | .minv rd rs1 => Sys2Proof.Machine.execMinv rd rs1 s
  | .mexp rd base exp => Sys2Proof.Machine.execMexp rd base exp s
  | .mkp pd rx ry => Sys2Proof.Machine.execMkp pd rx ry s
  | .mkinf pd => Sys2Proof.Machine.execMkinf pd s
  | .movp pd ps => Sys2Proof.Machine.execMovp pd ps s
  | .pgx rd ps => Sys2Proof.Machine.execPgx rd ps s
  | .pgy rd ps => Sys2Proof.Machine.execPgy rd ps s
  | .ptinf rd ps => Sys2Proof.Machine.execPtinf rd ps s
  | .pchk rd ps => Sys2Proof.Machine.execPchk rd ps s
  | .pneg pd ps => Sys2Proof.Machine.execPneg pd ps s
  | .padd pd ps1 ps2 => Sys2Proof.Machine.execPadd pd ps1 ps2 s
  | .pdbl pd ps => Sys2Proof.Machine.execPdbl pd ps s
  | .smul pd rk ps => Sys2Proof.Machine.execSmul pd rk ps s
  | .pord rd ps => Sys2Proof.Machine.execPord rd ps s
  | .encf pd ps => Sys2Proof.Machine.execEncf pd ps s
  | .decf pd ps => Sys2Proof.Machine.execDecf pd ps s

end Sys2Proof.Machine
end

