-- ==== Sys2Proof/Machine/Issue.lean ====
section
/-! DEFINITION. The parts of one command step (30_encoding.md R85): taking a command from the channel, and issuing it. -/

namespace Sys2Proof.Machine

/-- What taking the next command gives. -/
inductive Fetched
  /-- A whole command, and the state after its units are taken. -/
  | command (w : Word) (beat : Nat) (s : State)
  /-- An LDR word was taken and its beat has not arrived (10_state.md R39(a)). -/
  | partly (s : State)
  /-- No step. -/
  | stop (f : Fault)
  deriving DecidableEq, Repr

/-- `RecvWord()`, and `RecvBeat()` after an LDR word (30_encoding.md R85; 10_state.md R39; 20_memory.md R62). -/
def fetch (s : State) : Fetched :=
  match s.rx with
  | .idle =>
    match frame s.width s.units with
    | .nothing => .stop .waitCommand
    | .misfit => .stop .misfitUnit
    | .awaiting w => .partly { s with rx := .awaitBeat w, units := [] }
    | .command w beat rest => .command w beat { s with units := rest }
  | .awaitBeat w =>
    match s.units with
    | [] => .stop .waitBeat
    | b :: rest =>
      if b < 2 ^ s.width then .command w b { s with rx := .idle, units := rest } else .stop .misfitUnit

/-- What the core does with a command it has taken: while a fault is pending, only a legal STR, RDCSR or CLRF executes and everything
else is discarded (30_encoding.md R86); otherwise an illegal word raises IllegalCommand (60_exceptions.md R231) and a legal one executes.
NotConfigured is raised in the meanings of the computing commands (log 11). -/
def issue (w : Word) (beat : Nat) (s : State) : Host.Outcome State Fault Refusal :=
  match decode w beat with
  | .error _ => if s.fault then .next s else .next (s.commitFault .illegalCommand w)
  | .ok i => if s.fault && !i.mnemonic.runsFaulted then .next s else exec i s

/-- `s` with the units of a table word in front of its command channel, the core idle (log 14). -/
def State.offerWord (s : State) (nbits w : Nat) : State :=
  { s with rx := .idle, units := tableUnits s.width nbits w ++ s.units }

end Sys2Proof.Machine
end

