-- ==== Sys2Proof/Machine/Step.lean ====
section
/-! DEFINITION. One step of the core (30_encoding.md R85), and how a command is put where the next step takes it. -/

namespace Sys2Proof.Machine

/-- One command step: take the next command and issue it. A step that has only an LDR word to take leaves the core waiting for the beat
(10_state.md R39(a); log 7). -/
def step (s : State) : Host.Outcome State Fault Refusal :=
  match fetch s with
  | .command w beat s' => issue w beat s'
  | .partly s' => .next s'
  | .stop f => .fault f

/-- `s` with the instruction offered as the next units of the command channel (log 14). -/
def State.withFetchWord (s : State) (nbits w : Nat) : State := s.offerWord nbits w

end Sys2Proof.Machine
end

