-- ==== Sys2Proof/Machine/Events.lean ====
section
/-! DEFINITION. What the host can do to the core between steps: offer units, accept responses or not, reset (20_memory.md R60;
70_reset_and_hazards.md R260, R261). The spec gives the host no other move. -/

namespace Sys2Proof.Machine

/-- The host's moves (20_memory.md R60). -/
inductive HostEvent
  /-- Offers units on the command channel, after those already there. -/
  | send (us : List Nat)
  /-- Starts or stops accepting response beats. -/
  | accept (b : Bool)
  /-- A reset event. `taken` is how many units of the command at the front the core had already taken when the reset arrived: timing
  that the model leaves to the event (log 9). -/
  | reset (taken : Nat)
  deriving DecidableEq, Repr

/-- How many channel units the command being received has still to take (30_encoding.md R77). -/
def State.pendingUnits (s : State) : Nat :=
  match s.rx with
  | .awaitBeat _ => 1
  | .idle =>
    match s.units with
    | [] => 0
    | u :: _ => if Word.hasBeat (wordOfUnit u) then 2 else 1

/-- A reset event: every piece of architectural state takes its reset value and the receive state is idle (70_reset_and_hazards.md R260,
R261). A command that was being received or executed has no effect, and its taken units are gone. What the host has accepted, whether it
accepts, and what it has still to send are the host's. -/
def State.resetEvent (s : State) (taken : Nat) : State :=
  { State.resetAt s.width with
    units := s.units.drop (min taken s.pendingUnits)
    ready := s.ready
    sent := s.sent }

/-- The state after a move of the host. -/
def State.onHost (s : State) : HostEvent → State
  | .send us => { s with units := s.units ++ us }
  | .accept b => { s with ready := b }
  | .reset taken => s.resetEvent taken

end Sys2Proof.Machine
end

