-- ==== Sys2Proof/WellFormed.lean ====
section
/-! DEFINITION. Which instruction terms stand for a command the encoding can express on a core of width `W`. Register indices are in
range by their type, so four value limits are left. -/

namespace Sys2Proof

/-- A term is well formed when its LDR beat has `W` bits (30_encoding.md R78), its RDCSR number is at most 8 and its WRCSR number is
CTRL's (R79), and its CINIT block lies within `R0` to `R15` (R80). -/
def Instr.wellFormed (W : Nat) : Instr → Bool
  | .ldr _ beat => decide (beat < 2 ^ W)
  | .rdcsr _ csr => decide (csr.val ≤ Config.lastCsr)
  | .wrcsr csr _ => decide (csr.val = Config.ctrlCsr)
  | .cinit base => decide (base.val ≤ Config.lastBase)
  | .str _ | .movr _ _ | .clrf => true
  | .madd _ _ _ | .msub _ _ _ | .mmul _ _ _ | .minv _ _ | .mexp _ _ _ => true
  | .mkp _ _ _ | .mkinf _ | .movp _ _ | .pgx _ _ | .pgy _ _ | .ptinf _ _ => true
  | .pchk _ _ | .pneg _ _ | .padd _ _ _ | .pdbl _ _ | .smul _ _ _ | .pord _ _ => true
  | .encf _ _ | .decf _ _ => true

end Sys2Proof
end

