-- ==== Sys2Proof/Safety.lean ====
section
/-! DEFINITION. The terms the claims are stated in: the invariant of the machine, which command may raise which fault, the loops of the
spec as relations that need no bound, a channel the host may legally offer, and the states a core can reach. -/

namespace Sys2Proof

/-! ## What a command writes -/

/-- The scalar register a command writes, from the `writes R` column of 10_state.md R21. -/
def Instr.scalarDest : Instr → Option RegIdx
  | .ldr rd _ | .movr rd _ | .rdcsr rd _ => some rd
  | .madd rd _ _ | .msub rd _ _ | .mmul rd _ _ | .minv rd _ | .mexp rd _ _ => some rd
  | .pgx rd _ | .pgy rd _ | .ptinf rd _ | .pchk rd _ | .pord rd _ => some rd
  | .str _ | .wrcsr _ _ | .clrf | .cinit _ => none
  | .mkp _ _ _ | .mkinf _ | .movp _ _ | .pneg _ _ | .padd _ _ _ | .pdbl _ _ | .smul _ _ _ | .encf _ _ | .decf _ _ => none

/-- The point register a command writes, from the `writes P` column of 10_state.md R23. -/
def Instr.pointDest : Instr → Option PtIdx
  | .mkp pd _ _ | .mkinf pd | .movp pd _ => some pd
  | .pneg pd _ | .padd pd _ _ | .pdbl pd _ | .smul pd _ _ | .encf pd _ | .decf pd _ => some pd
  | .ldr _ _ | .str _ | .movr _ _ | .rdcsr _ _ | .wrcsr _ _ | .clrf | .cinit _ => none
  | .madd _ _ _ | .msub _ _ _ | .mmul _ _ _ | .minv _ _ | .mexp _ _ _ => none
  | .pgx _ _ | .pgy _ _ | .ptinf _ _ | .pchk _ _ | .pord _ _ => none

/-- The `mask` of a row, as 30_encoding.md R75 builds it. -/
def Mnemonic.mask (m : Mnemonic) : Word :=
  0xFC003FFF#32 ||| (if m.usesF1 then 0#32 else 0x03C00000#32) ||| (if m.usesF2 then 0#32 else 0x003C0000#32)
    ||| (if m.usesF3 then 0#32 else 0x0003C000#32)

/-- The `match` of a row: `op << 26` (30_encoding.md R75). -/
def Mnemonic.pattern (m : Mnemonic) : Word := BitVec.ofNat 32 m.opcode <<< 26

/-- The word with a row's match value and the given fields, for statements that write a command's word out from its rule. -/
def commandWord (base : Nat) (f1 f2 f3 : Fin 16) : Word :=
  BitVec.ofNat 32 (base + f1.val * 0x400000 + f2.val * 0x40000 + f3.val * 0x4000)

/-- The channel units of a word and its beat: two when `w[31:26] = 0x01`, one otherwise (30_encoding.md R77). -/
def unitsOfWord (w : Word) (beat : Nat) : List Nat :=
  if w.extractLsb' 26 6 = 0x01#6 then [w.toNat, beat] else [w.toNat]

end Sys2Proof

namespace Sys2Proof.Machine

/-! ## The invariant -/

/-- `W >= 32`, and it fits the 32-bit WIDTH CSR (00_scope.md R5; 10_state.md R36; log 2). -/
abbrev State.widthOk (s : State) : Prop := Config.minWidth ≤ s.width ∧ s.width < 2 ^ 32

/-- Every scalar register holds a natural in `[0, 2^W)` (10_state.md R20). -/
abbrev State.regsOk (s : State) : Prop := ∀ i : RegIdx, s.reg i < 2 ^ s.width

/-- A stored point has W-bit coordinates, and `INF` is stored in its one form (10_state.md R22, R23). -/
abbrev PointReg.ok (W : Nat) (q : PointReg) : Prop := q.x < 2 ^ W ∧ q.y < 2 ^ W ∧ (q.inf = true → q.x = 0 ∧ q.y = 0)

/-- Every point register is stored so. -/
abbrev State.pointsOk (s : State) : Prop := ∀ i : PtIdx, (s.pt i).ok s.width

/-- The configuration invariant (10_state.md R40), and zeros before the first CINIT (10_state.md R31 to R34). -/
abbrev State.configOk (s : State) : Prop :=
  (s.cfg = true →
      3 < s.cp ∧ s.cp < 2 ^ s.width ∧ s.ca < s.cp ∧ s.cb < s.cp ∧ 1 ≤ s.cl ∧ s.cl < s.cp ∧ Nat.gcd s.cl s.cp = 1)
    ∧ (s.cfg = false → s.cp = 0 ∧ s.ca = 0 ∧ s.cb = 0 ∧ s.cl = 0)

/-- Which commands may raise a fault kind; IllegalCommand is no command's (60_exceptions.md R230, R232 to R236). -/
def Raise.raisedBy : Raise → List Mnemonic
  | .illegalCommand => []
  | .notConfigured => [.madd, .msub, .mmul, .minv, .mexp, .pchk, .pneg, .padd, .pdbl, .smul, .pord, .encf, .decf]
  | .invalidModulus => [.cinit]
  | .noInverse => [.minv, .cinit, .padd, .pdbl, .smul, .pord, .decf]
  | .orderOverflow => [.pord]
  | .domainViolation => [.padd, .pdbl, .smul, .pord]

/-- The pair FCODE, FCMD describes one fault: an illegal word with IllegalCommand's code, or a legal one with the code of a fault its
command may raise (60_exceptions.md R230, R237). -/
def recordOk (code : BitVec 4) (w : Word) : Bool :=
  match decode w 0 with
  | .error _ => code == Raise.illegalCommand.code
  | .ok i =>
    [Raise.notConfigured, .invalidModulus, .noInverse, .orderOverflow, .domainViolation].any fun e =>
      code == e.code && e.raisedBy.contains i.mnemonic

/-- The fault registers: all clear, or the record of one fault (10_state.md R27, R28, R30; 60_exceptions.md R237). -/
abbrev State.faultOk (s : State) : Prop :=
  (s.fault = true → recordOk s.fcode s.fcmd = true) ∧ (s.fault = false → s.fcode = 0 ∧ s.fcmd = 0)

/-- The core waits for a beat only after an LDR word (10_state.md R39(a); 30_encoding.md R77). -/
def Receive.ok : Receive → Bool
  | .idle => true
  | .awaitBeat w => Word.hasBeat w

/-- Every response beat has W bits (20_memory.md R55). -/
abbrev State.sentOk (s : State) : Prop := ∀ v ∈ s.sent, v < 2 ^ s.width

/-- The invariant of the machine. -/
abbrev State.Inv (s : State) : Prop :=
  s.widthOk ∧ s.regsOk ∧ s.pointsOk ∧ s.configOk ∧ s.faultOk ∧ s.rx.ok = true ∧ s.sentOk

/-- The states a core can reach: from reset, by steps of the core and moves of the host, in any order (20_memory.md R60). -/
inductive Reachable : State → Prop
  | reset (W : Nat) (low : Config.minWidth ≤ W) (high : W < 2 ^ 32) : Reachable (State.resetAt W)
  | step {s t : State} (hs : Reachable s) (h : step s = .next t) : Reachable t
  | host {s : State} (hs : Reachable s) (e : HostEvent) : Reachable (s.onHost e)

/-! ## What software reads -/

/-- The value of CSR `n`, from the map and the field layouts of 10_state.md R24, R25, R29, R30 to R36. -/
def csrValue (s : State) : Nat → Nat
  | 0 => s.cfg.toNat + 2 * s.fault.toNat + 16 * s.fcode.toNat
  | 1 => s.dvchk.toNat
  | 2 => s.fcmd.toNat
  | 3 => s.cp
  | 4 => s.ca
  | 5 => s.cb
  | 6 => s.cl
  | 7 => 0x45434331
  | 8 => s.width
  | _ => 0

/-! ## A state with one register written -/

/-- `s` with `v` in scalar register `rd` and nothing else changed. -/
def withScalar (s : State) (rd : RegIdx) (v : Nat) : State := { s with r := s.r.set rd.val v }

/-- `s` with the three fields `q` in point register `pd` and nothing else changed. -/
def withPoint (s : State) (pd : PtIdx) (q : PointReg) : State := { s with p := s.p.set pd.val q }

/-! ## A channel the host may offer -/

/-- Every unit is one a host may send, 32 bits for a word or `W` for a beat, and a unit in beat position has at most `W` bits
(20_memory.md R51, R55). The flag says that a beat comes next. A beat in word position is what a reset can leave (70_reset_and_hazards.md
R261). -/
def unitsFit (W : Nat) : (beatNext : Bool) → List Nat → Bool
  | _, [] => true
  | true, b :: rest => decide (b < 2 ^ W) && unitsFit W false rest
  | false, u :: rest => decide (u < 2 ^ 32 ∨ u < 2 ^ W) && unitsFit W (Word.hasBeat (wordOfUnit u)) rest

/-- The core's channel holds only units that fit. -/
def State.channelOk (s : State) : Bool := unitsFit s.width (s.rx != .idle) s.units

/-! ## The spec's loops, without a bound -/

/-- `b` is the inverse of the integer `a` modulo `p` that 00_scope.md R11 names: in `[1, p)`, with `(a mod p)·b mod p = 1`. -/
def IsInverse (p : Nat) (a : Int) (b : Nat) : Prop := 1 ≤ b ∧ b < p ∧ (a * b) % (p : Int) = 1

/-- The curve equation, on integers (42_point_ops.md R140). -/
def IsOnCurve (c : Curve) : Point → Prop
  | .inf => True
  | .aff x y => (c.p : Int) ∣ (y : Int) * y - (x : Int) * x * x - c.a * x - c.b

/-- The operand passes the domain check, or none is made (42_point_ops.md R147). -/
def State.admits (s : State) (i : PtIdx) : Prop := s.dvchk = true → IsOnCurve s.curve (s.canonPt i)

/-- `q` is the affine point that the group law's last three lines compute from the slope `m` (42_point_ops.md R142). -/
def IsChord (p : Nat) (m x1 y1 x2 : Nat) (q : PointReg) : Prop :=
  q.inf = false ∧ (q.x : Int) = ((m : Int) * m - x1 - x2) % p ∧ (q.y : Int) = ((m : Int) * ((x1 : Int) - q.x) - y1) % p

/-- The loop of 43_scalar_and_order.md R170 from `k`, `addend`, `result`: its result, or the first fault in loop order. -/
inductive DoubleAndAdd (c : Curve) : Nat → Point → Point → Except Raise Point → Prop
  | done (addend result : Point) : DoubleAndAdd c 0 addend result (.ok result)
  | addFails {k : Nat} {addend result : Point} {e : Raise} (odd : k % 2 = 1) (h : ecadd c addend result = .error e) :
      DoubleAndAdd c k addend result (.error e)
  | doubleFailsOdd {k : Nat} {addend result result' : Point} {e : Raise} (odd : k % 2 = 1)
      (ha : ecadd c addend result = .ok result') (hd : ecadd c addend addend = .error e) :
      DoubleAndAdd c k addend result (.error e)
  | doubleFailsEven {k : Nat} {addend result : Point} {e : Raise} (pos : 0 < k) (even : k % 2 = 0)
      (hd : ecadd c addend addend = .error e) : DoubleAndAdd c k addend result (.error e)
  | odd {k : Nat} {addend addend' result result' : Point} {out : Except Raise Point} (odd : k % 2 = 1)
      (ha : ecadd c addend result = .ok result') (hd : ecadd c addend addend = .ok addend')
      (rest : DoubleAndAdd c (k / 2) addend' result' out) : DoubleAndAdd c k addend result out
  | even {k : Nat} {addend addend' result : Point} {out : Except Raise Point} (pos : 0 < k) (even : k % 2 = 0)
      (hd : ecadd c addend addend = .ok addend') (rest : DoubleAndAdd c (k / 2) addend' result out) :
      DoubleAndAdd c k addend result out

/-- The loop of 43_scalar_and_order.md R175 from `q`, `n` on a core of width `W`: the count, or the first fault in loop order. -/
inductive OrderScan (c : Curve) (W : Nat) (g : Point) : Point → Nat → Except Raise Nat → Prop
  | found (n : Nat) : OrderScan c W g .inf n (.ok n)
  | overflow {q : Point} {n : Nat} (hq : q ≠ .inf) (limit : n = 2 ^ W - 1) : OrderScan c W g q n (.error .orderOverflow)
  | addFails {q : Point} {n : Nat} {e : Raise} (hq : q ≠ .inf) (below : n ≠ 2 ^ W - 1) (h : ecadd c q g = .error e) :
      OrderScan c W g q n (.error e)
  | next {q q' : Point} {n : Nat} {out : Except Raise Nat} (hq : q ≠ .inf) (below : n ≠ 2 ^ W - 1) (h : ecadd c q g = .ok q')
      (rest : OrderScan c W g q' (n + 1) out) : OrderScan c W g q n out

end Sys2Proof.Machine
end

