-- ==== Sys2Proof/Certificates/Slice0/Obligations.lean ====
section
/-! DEFINITION. The statements for the provers. Each follows a numbered rule of spec/, named in its docstring. A result that is an
equation with `{ s with … }`, `withScalar` or `withPoint` is its instruction's frame as well: everything not named is unchanged. -/

open Sys2Proof Sys2Proof.Machine

/-! ## Encoding -/

/-- 30_encoding.md R70 to R80: the decoder reads back every well-formed command, with every operand, from the units that encode it, and
leaves the units after them. -/
def Obligations.DecodeUnitsOfEncode : Prop :=
  ∀ (W : Nat) (i : Instr) (rest : List Nat), i.wellFormed W = true → decodeUnits W (encode i ++ rest) = .ok (i, rest)

/-- 30_encoding.md R76, R77: a word that decodes has one spelling, so the word and its beat are the encoding of what they decode to. -/
def Obligations.EncodeOfDecode : Prop :=
  ∀ (w : Word) (beat : Nat) (i : Instr), decode w beat = .ok i → encode i = unitsOfWord w beat

/-- 30_encoding.md R73: the legal words are those of some row's mask and match, within the value limits of R79 and R80. -/
def Obligations.LegalWordsAreMaskAndMatch : Prop :=
  ∀ (w : Word) (beat : Nat),
    (∃ i, decode w beat = .ok i) ↔
      ∃ m : Mnemonic, w &&& m.mask = m.pattern
        ∧ (m = .rdcsr → (w.extractLsb' 18 4).toNat ≤ 8)
        ∧ (m = .wrcsr → (w.extractLsb' 22 4).toNat = 1)
        ∧ (m = .cinit → (w.extractLsb' 18 4).toNat ≤ 11)

/-- Words the spec writes out, one of every family, decode to the commands they stand for (the examples of the command rules). -/
def Obligations.SpecWordsDecode : Prop :=
  decode 0x04C00000#32 0x2A = .ok (.ldr 3 42) ∧ decode 0x10400000#32 0 = .ok (.rdcsr 1 0) ∧ decode 0x14480000#32 0 = .ok (.wrcsr 1 2)
    ∧ decode 0x20000000#32 0 = .ok (.cinit 0) ∧ decode 0x4048C000#32 0 = .ok (.madd 1 2 3) ∧ decode 0x6048C000#32 0 = .ok (.mkp 1 2 3)
    ∧ decode 0x8848C000#32 0 = .ok (.padd 1 2 3) ∧ decode 0x9048C000#32 0 = .ok (.smul 1 2 3) ∧ decode 0x94480000#32 0 = .ok (.pord 1 2)
    ∧ decode 0xA50C0000#32 0 = .ok (.decf 4 3)

/-- 30_encoding.md R76: a word with an opcode of that rule's list is illegal. -/
def Obligations.UnassignedOpcodesAreIllegal : Prop :=
  ∀ (w : Word) (beat op : Nat), op = (w.extractLsb' 26 6).toNat →
    (op = 0x00 ∨ op = 0x07 ∨ (0x09 ≤ op ∧ op ≤ 0x0F) ∨ (0x15 ≤ op ∧ op ≤ 0x17) ∨ (0x1E ≤ op ∧ op ≤ 0x1F) ∨ (0x26 ≤ op ∧ op ≤ 0x27)
        ∨ 0x2A ≤ op) →
    decode w beat = .error .unassignedOpcode

/-! ## The command step and the faulted state -/

/-- 30_encoding.md R85: with no fault pending, or for a command that executes while one is, a step takes the units of the command and
executes it; when the LDR word was taken before, it takes the beat. -/
def Obligations.StepRunsDecodedCommand : Prop :=
  (∀ (s : State) (i : Instr) (rest : List Nat), s.rx = .idle → i.wellFormed s.width = true → s.units = encode i ++ rest →
      (s.fault = false ∨ i.mnemonic ∈ [.str, .rdcsr, .clrf]) → step s = exec i { s with units := rest })
    ∧ ∀ (s : State) (w : Word) (beat : Nat) (i : Instr) (rest : List Nat), s.rx = .awaitBeat w → s.units = beat :: rest →
      beat < 2 ^ s.width → decode w beat = .ok i → s.fault = false → step s = exec i { s with rx := .idle, units := rest }

/-- 10_state.md R39(a): an LDR word whose beat has not arrived is taken, legal or not, and nothing else happens. -/
def Obligations.LoneLdrWordAwaitsBeat : Prop :=
  ∀ (s : State) (w : Word), s.rx = .idle → w.extractLsb' 26 6 = 0x01#6 → s.units = [w.toNat] →
    step s = .next { s with rx := .awaitBeat w, units := [] }

/-- 20_memory.md R62: the core has no step without a command word, without an awaited beat, or while the host does not accept an STR's
beat; and a step that is not taken is one of these, or meets a unit no host may send (the model's choice, log 4). It is never a
refusal. The receive state must be one of the invariant's. -/
def Obligations.StepStopsOnlyToWait : Prop :=
  (∀ s : State, s.rx = .idle → s.units = [] → step s = .fault .waitCommand)
    ∧ (∀ (s : State) (w : Word), s.rx = .awaitBeat w → s.units = [] → step s = .fault .waitBeat)
    ∧ (∀ (s : State) (rs : RegIdx) (rest : List Nat), s.rx = .idle → s.ready = false →
        s.units = (commandWord 0x08000000 0 rs 0).toNat :: rest → step s = .fault .waitAccept)
    ∧ (∀ s : State, s.rx.ok = true → s.channelOk = true →
        (∃ t, step s = .next t) ∨ (s.units = [] ∧ (step s = .fault .waitCommand ∨ step s = .fault .waitBeat))
          ∨ (s.ready = false ∧ ∃ rs : RegIdx, s.units.head?.map wordOfUnit = some (commandWord 0x08000000 0 rs 0)
              ∧ step s = .fault .waitAccept))

/-- 30_encoding.md R77 and 60_exceptions.md R231: with no fault pending, a word that `Decode` finds illegal takes its units, the beat of
an LDR word included, and commits IllegalCommand; nothing else changes. -/
def Obligations.IllegalWordCommitsIllegalCommand : Prop :=
  (∀ (s : State) (w : Word) (beat : Nat) (e : Reject) (rest : List Nat), s.rx = .idle → s.fault = false → beat < 2 ^ s.width →
      s.units = unitsOfWord w beat ++ rest → decode w beat = .error e →
      step s = .next { s with units := rest, fault := true, fcode := 1, fcmd := w })
    ∧ ∀ (s : State) (w : Word) (beat : Nat) (e : Reject) (rest : List Nat), s.rx = .awaitBeat w → s.fault = false →
      beat < 2 ^ s.width → s.units = beat :: rest → decode w beat = .error e →
      step s = .next { s with rx := .idle, units := rest, fault := true, fcode := 1, fcmd := w }

/-- 30_encoding.md R86: while FAULT = 1, a legal STR, RDCSR or CLRF executes and raises nothing; every other word, legal or illegal,
consumes its units and changes no state. -/
def Obligations.FaultedCoreRunsOnlyStrRdcsrClrf : Prop :=
  (∀ (s : State) (i : Instr) (rest : List Nat), s.fault = true → s.rx = .idle → i.mnemonic ∈ [.str, .rdcsr, .clrf] →
      i.wellFormed s.width = true → s.units = encode i ++ rest → step s = exec i { s with units := rest })
    ∧ (∀ (s t : State) (i : Instr), i.mnemonic ∈ [.str, .rdcsr, .clrf] → i.wellFormed s.width = true → exec i s = .next t →
        t.fault = true → s.fault = true ∧ t.fcode = s.fcode ∧ t.fcmd = s.fcmd)
    ∧ (∀ (s : State) (w : Word) (beat : Nat) (rest : List Nat), s.fault = true → s.rx = .idle → beat < 2 ^ s.width →
        s.units = unitsOfWord w beat ++ rest → (∀ i, decode w beat = .ok i → i.mnemonic ∉ [.str, .rdcsr, .clrf]) →
        step s = .next { s with units := rest })
    ∧ ∀ (s : State) (w : Word) (beat : Nat) (rest : List Nat), s.fault = true → s.rx = .awaitBeat w → w.extractLsb' 26 6 = 0x01#6 →
      beat < 2 ^ s.width → s.units = beat :: rest → step s = .next { s with rx := .idle, units := rest }

/-- 60_exceptions.md R241: a legal CLRF is the only command that ends the faulted state; it clears FAULT, FCODE and FCMD and changes
nothing else. Its unit is the word of clrf, or a wide unit taken as that word (log 19). The receive state must be one of the
invariant's. -/
def Obligations.OnlyClrfEndsFaultedState : Prop :=
  ∀ s t : State, s.rx.ok = true → step s = .next t → s.fault = true → t.fault = false →
    s.rx = .idle ∧ (∃ u, wordOfUnit u = 0x18000000 ∧ s.units = u :: t.units)
      ∧ t = { s with fault := false, fcode := 0, fcmd := 0, units := t.units }

/-- 10_state.md R28, R30 and 60_exceptions.md R240: a step that starts and ends with a fault pending keeps the record of the first fault,
and changes no point register, no configuration and no control bit. -/
def Obligations.FaultedStepKeepsRecordAndConfiguration : Prop :=
  ∀ s t : State, step s = .next t → s.fault = true → t.fault = true →
    t.fcode = s.fcode ∧ t.fcmd = s.fcmd ∧ (∀ i, t.pt i = s.pt i) ∧ t.cfg = s.cfg ∧ t.dvchk = s.dvchk ∧ t.cp = s.cp ∧ t.ca = s.ca
      ∧ t.cb = s.cb ∧ t.cl = s.cl

/-- 60_exceptions.md R237, R238: a command that raises a fault writes FAULT, FCODE and FCMD, with FCMD its own word, and nothing else. -/
def Obligations.FaultCommitIsPrecise : Prop :=
  ∀ (i : Instr) (s t : State), s.fault = false → exec i s = .next t → t.fault = true →
    t = { s with fault := true, fcode := t.fcode, fcmd := encodeWord i }

/-- 60_exceptions.md R230: each fault code is raised only by the commands its row names, and IllegalCommand by no legal command. -/
def Obligations.FaultCodeNamesItsRaisers : Prop :=
  ∀ (i : Instr) (s t : State), i.wellFormed s.width = true → s.fault = false → exec i s = .next t → t.fault = true →
    (t.fcode = 2 ∧ i.mnemonic ∈ [.madd, .msub, .mmul, .minv, .mexp, .pchk, .pneg, .padd, .pdbl, .smul, .pord, .encf, .decf])
      ∨ (t.fcode = 3 ∧ i.mnemonic ∈ [.cinit])
      ∨ (t.fcode = 4 ∧ i.mnemonic ∈ [.minv, .cinit, .padd, .pdbl, .smul, .pord, .decf])
      ∨ (t.fcode = 5 ∧ i.mnemonic ∈ [.pord])
      ∨ (t.fcode = 6 ∧ i.mnemonic ∈ [.padd, .pdbl, .smul, .pord])

/-- 60_exceptions.md R232: every computing command raises NotConfigured while STATUS.CFG = 0, before any operand is examined, and
CINIT and the commands of 45_interface_commands.md never raise it. -/
def Obligations.ComputingCommandsNeedConfiguration : Prop :=
  (∀ (i : Instr) (s : State), s.cfg = false → s.fault = false →
      i.mnemonic ∈ [.madd, .msub, .mmul, .minv, .mexp, .pchk, .pneg, .padd, .pdbl, .smul, .pord, .encf, .decf] →
      exec i s = .next { s with fault := true, fcode := 2, fcmd := encodeWord i })
    ∧ ∀ (i : Instr) (s t : State), s.fault = false → exec i s = .next t → t.fault = true → t.fcode = 2 →
      i.mnemonic ∉ [.cinit, .ldr, .str, .movr, .rdcsr, .wrcsr, .clrf, .mkp, .mkinf, .movp, .pgx, .pgy, .ptinf]

/-! ## Reset -/

/-- 70_reset_and_hazards.md R260: the state a reset event leaves, on a core of any width and from any state: every piece of architectural
state at its reset value, the width unchanged, the core waiting for its first command word. `State.reset` is such a state. -/
def Obligations.ResetValues : Prop :=
  (∀ (s : State) (taken : Nat),
    let t := s.onHost (.reset taken)
    (∀ i, t.reg i = 0) ∧ (∀ i, t.pt i = { inf := true, x := 0, y := 0 }) ∧ t.cfg = false ∧ t.fault = false ∧ t.fcode = 0
      ∧ t.dvchk = false ∧ t.fcmd = 0 ∧ t.cp = 0 ∧ t.ca = 0 ∧ t.cb = 0 ∧ t.cl = 0 ∧ t.rx = .idle ∧ t.width = s.width
      ∧ step { t with units := [] } = .fault .waitCommand)
    ∧ State.reset.onHost (.reset 0) = State.reset

/-- 70_reset_and_hazards.md R261: after a reset that arrives while a beat is awaited, the next unit is taken as a command word and runs on
the reset state: a well-formed command; or any unit a host may send, a wide beat included, as its word (which word a unit above 32 bits
gives is a free value, log 19). A reset sends no beat. It leaves the units that the core had not taken, those of a command it had begun
aside (the model's choice, log 9), and they fit: no lawful host meets a misfit unit (log 4). -/
def Obligations.ResetDiscardsPartlyReceivedCommand : Prop :=
  (∀ (s : State) (w : Word) (i : Instr) (rest : List Nat), s.rx = .awaitBeat w → i.wellFormed s.width = true →
      s.units = encode i ++ rest →
      step (s.onHost (.reset 0)) = exec i { State.resetAt s.width with units := rest, ready := s.ready, sent := s.sent })
    ∧ (∀ (s : State) (w : Word) (u : Nat) (rest : List Nat), s.rx = .awaitBeat w → (u < 2 ^ 32 ∨ u < 2 ^ s.width) → s.units = u :: rest →
        Word.hasBeat (wordOfUnit u) = false →
        (∀ i, decode (wordOfUnit u) 0 = .ok i →
            step (s.onHost (.reset 0)) = exec i { State.resetAt s.width with units := rest, ready := s.ready, sent := s.sent })
          ∧ ((∀ i, decode (wordOfUnit u) 0 ≠ .ok i) →
            step (s.onHost (.reset 0)) = .next { State.resetAt s.width with
              units := rest, ready := s.ready, sent := s.sent, fault := true, fcode := 1, fcmd := wordOfUnit u }))
    ∧ (∀ (s : State) (u : Nat) (rest : List Nat), s.rx = .idle → (u < 2 ^ 32 ∨ u < 2 ^ s.width) → s.units = u :: rest →
        step s = step { s with units := (wordOfUnit u).toNat :: rest })
    ∧ ∀ (s : State) (taken : Nat), (s.onHost (.reset taken)).sent = s.sent
      ∧ (∃ front, s.units = front ++ (s.onHost (.reset taken)).units ∧ front.length ≤ 2)
      ∧ (32 ≤ s.width → (∀ u ∈ s.units, u < 2 ^ s.width) → (s.onHost (.reset taken)).channelOk = true)

/-- The reset state of every width the spec allows meets the invariant. -/
def Obligations.ResetMeetsInvariant : Prop :=
  ∀ W : Nat, 32 ≤ W → W < 2 ^ 32 → (State.resetAt W).Inv

/-! ## The invariant -/

/-- 10_state.md R20, R22, R23, R25, R28, R31 to R34, R39, R40: every step keeps the invariant: W-bit registers, one form of INF, the
configuration invariant, a fault record that describes one fault, W-bit response beats. -/
def Obligations.StepKeepsInvariant : Prop :=
  ∀ s t : State, s.Inv → step s = .next t → t.Inv

/-- 20_memory.md R60: no move of the host breaks the invariant, reset events at any point included. -/
def Obligations.HostMovesKeepInvariant : Prop :=
  ∀ (s : State) (e : HostEvent), s.Inv → (s.onHost e).Inv

/-- 10_state.md R20, R23, R30, R39, R40, 20_memory.md R51, R55, R60: every state a core can reach, under any host, meets the invariant, with
`W` below `2^32` (the model's reading, log 2); and a step on a channel of fitting units leaves one of fitting units (the host's duty, log
4). -/
def Obligations.ReachableStatesMeetInvariant : Prop :=
  (∀ s : State, Reachable s → s.Inv) ∧ ∀ s t : State, s.channelOk = true → step s = .next t → t.channelOk = true

/-! ## Whole-machine rules -/

/-- 10_state.md R26, R31 to R34 and 41_curve_config.md R125: only CINIT writes CP, CA, CB, CL and CFG, and no step clears CFG. -/
def Obligations.OnlyCinitWritesConfiguration : Prop :=
  (∀ (i : Instr) (s t : State), exec i s = .next t → i.mnemonic ≠ .cinit →
      t.cfg = s.cfg ∧ t.cp = s.cp ∧ t.ca = s.ca ∧ t.cb = s.cb ∧ t.cl = s.cl)
    ∧ ∀ s t : State, step s = .next t → s.cfg = true → t.cfg = true

/-- 10_state.md R29, 20_memory.md R52, 00_scope.md R5: only WRCSR writes CTRL, only STR sends a beat (and exactly one), and no command
changes the width, the channel, the receive state or the host's readiness. -/
def Obligations.OnlyWrcsrWritesCtrlOnlyStrSends : Prop :=
  ∀ (i : Instr) (s t : State), exec i s = .next t →
    (i.mnemonic ≠ .wrcsr → t.dvchk = s.dvchk) ∧ (i.mnemonic ≠ .str → t.sent = s.sent)
      ∧ (i.mnemonic = .str → ∃ v, t.sent = s.sent ++ [v])
      ∧ t.width = s.width ∧ t.units = s.units ∧ t.rx = s.rx ∧ t.ready = s.ready

/-- 10_state.md R21: a command writes no scalar register but the one in its row, and 10_state.md R23: no point register but the one in
its row; one that raises a fault writes neither. -/
def Obligations.CommandsWriteOnlyTheirDestination : Prop :=
  ∀ (i : Instr) (s t : State), exec i s = .next t →
    (∀ j : RegIdx, i.scalarDest ≠ some j → t.reg j = s.reg j) ∧ (∀ j : PtIdx, i.pointDest ≠ some j → t.pt j = s.pt j)
      ∧ (s.fault = false → t.fault = true → (∀ j, t.reg j = s.reg j) ∧ ∀ j, t.pt j = s.pt j)
      ∧ (i.mnemonic ≠ .clrf → s.fault = true → t.fault = true ∧ t.fcode = s.fcode ∧ t.fcmd = s.fcmd)
      ∧ (s.fault = false → t.fault = false → t.fcode = s.fcode ∧ t.fcmd = s.fcmd ∨ i = .clrf)

/-- 00_scope.md R17: what a computing command writes lies in `[0, p)`, in both coordinates for a point; PCHK writes 0 or 1; PORD writes a
count in `[1, 2^W)`. -/
def Obligations.ComputedResultsAreReduced : Prop :=
  ∀ (i : Instr) (s t : State), s.Inv → exec i s = .next t → t.fault = false →
    (i.mnemonic ∈ [.madd, .msub, .mmul, .minv, .mexp] → ∀ rd, i.scalarDest = some rd → t.reg rd < s.cp)
      ∧ (i.mnemonic ∈ [.pneg, .padd, .pdbl, .smul, .encf, .decf] → ∀ pd, i.pointDest = some pd →
          (t.pt pd).x < s.cp ∧ (t.pt pd).y < s.cp)
      ∧ (i.mnemonic ∈ [.pchk, .ptinf] → ∀ rd, i.scalarDest = some rd → t.reg rd ≤ 1)
      ∧ (i.mnemonic = .pord → ∀ rd, i.scalarDest = some rd → 1 ≤ t.reg rd ∧ t.reg rd < 2 ^ s.width)

/-- 70_reset_and_hazards.md R266: every command answers a next state, but for an STR whose beat the host does not accept. -/
def Obligations.EveryCommandCompletesOrWaits : Prop :=
  ∀ (i : Instr) (s : State),
    (∃ t, exec i s = .next t) ∨ (∃ rs, i = .str rs ∧ s.ready = false ∧ exec i s = .fault .waitAccept)

/-- 20_memory.md R61, R62: a core whose host accepts responses takes every unit of a channel of fitting units, in at most one step a
unit, and then waits: for a command word, or for the beat of an LDR word that ended the channel. That units fit is the host's duty
(log 4). -/
def Obligations.RunTakesEveryUnit : Prop :=
  ∀ s : State, s.ready = true → s.channelOk = true →
    ∃ (k : Nat) (t : State), k ≤ s.units.length ∧ Host.Core.run Sys2Proof.core k s = .next t ∧ t.units = []
      ∧ (t.rx = .idle → step t = .fault .waitCommand) ∧ (t.rx ≠ .idle → step t = .fault .waitBeat)

/-- 20_memory.md R57: a run sees no later unit: what the units at the front do is the same whatever follows them. -/
def Obligations.RunIgnoresLaterUnits : Prop :=
  ∀ (k : Nat) (s t : State) (later : List Nat), Host.Core.run Sys2Proof.core k s = .next t → t.rx = .idle →
    Host.Core.run Sys2Proof.core k { s with units := s.units ++ later } = .next { t with units := t.units ++ later }

/-- 20_memory.md R62, 92_eei_decisions.md D40: it makes no difference whether an LDR word's beat is there with the word or comes later. -/
def Obligations.BeatMayArriveLater : Prop :=
  ∀ (s : State) (w : Word) (beat : Nat), s.rx = .idle → s.units = [w.toNat] → w.extractLsb' 26 6 = 0x01#6 → beat < 2 ^ s.width →
    ∃ t, step s = .next t ∧ step (t.onHost (.send [beat])) = step (s.onHost (.send [beat]))
      ∧ ∃ u, step (s.onHost (.send [beat])) = .next u

/-! ## Interface and transfer commands -/

/-- 45_interface_commands.md R200 and R202: LDR writes its beat unchanged, MOVR copies. -/
def Obligations.LdrAndMovrWriteScalar : Prop :=
  (∀ (s : State) (rd : RegIdx) (beat : Nat), exec (.ldr rd beat) s = .next (withScalar s rd beat))
    ∧ ∀ (s : State) (rd rs : RegIdx), exec (.movr rd rs) s = .next (withScalar s rd (s.reg rs))

/-- 45_interface_commands.md R201: STR sends the register's value as one beat when the host accepts it, and waits until then. -/
def Obligations.StrSendsOneBeat : Prop :=
  ∀ (s : State) (rs : RegIdx),
    (s.ready = true → exec (.str rs) s = .next { s with sent := s.sent ++ [s.reg rs] })
      ∧ (s.ready = false → exec (.str rs) s = .fault .waitAccept)

/-- 10_state.md R24, R25, R29 to R36 and 45_interface_commands.md R203: RDCSR of each CSR 0 to 8 writes its value, faulted or not. The
width bound says that W fits the 32-bit WIDTH CSR. -/
def Obligations.RdcsrReadsEveryCsr : Prop :=
  ∀ (s : State) (rd : RegIdx) (csr : CsrNum), s.width < 2 ^ 32 → csr.val ≤ 8 →
    exec (.rdcsr rd csr) s = .next (withScalar s rd (csrValue s csr.val))

/-- 45_interface_commands.md R204: WRCSR of CTRL writes bit 0 of the register to DVCHK and nothing else. -/
def Obligations.WrcsrWritesDvchk : Prop :=
  ∀ (s : State) (rs : RegIdx), exec (.wrcsr 1 rs) s = .next { s with dvchk := (s.reg rs).testBit 0 }

/-- 45_interface_commands.md R205: CLRF clears FAULT, FCODE and FCMD and nothing else; with no fault pending it has no effect. -/
def Obligations.ClrfClearsFaultRegisters : Prop :=
  (∀ s : State, exec .clrf s = .next { s with fault := false, fcode := 0, fcmd := 0 })
    ∧ ∀ s : State, s.Inv → s.fault = false → exec .clrf s = .next s

/-- 45_interface_commands.md R206 to R208: MKP stores the raw pair, MKINF the one form of INF, MOVP all three fields. -/
def Obligations.PointTransfersStoreRaw : Prop :=
  (∀ (s : State) (pd : PtIdx) (rx ry : RegIdx),
      exec (.mkp pd rx ry) s = .next (withPoint s pd { inf := false, x := s.reg rx, y := s.reg ry }))
    ∧ (∀ (s : State) (pd : PtIdx), exec (.mkinf pd) s = .next (withPoint s pd { inf := true, x := 0, y := 0 }))
    ∧ ∀ (s : State) (pd ps : PtIdx), exec (.movp pd ps) s = .next (withPoint s pd (s.pt ps))

/-- 45_interface_commands.md R209 to R211: PGX and PGY write the stored coordinate, 0 when the register is INF, and PTINF writes 1
exactly when it is. -/
def Obligations.PointReadsReturnStoredFields : Prop :=
  ∀ (s : State) (rd : RegIdx) (ps : PtIdx),
    exec (.pgx rd ps) s = .next (withScalar s rd (s.pt ps).x)
      ∧ exec (.pgy rd ps) s = .next (withScalar s rd (s.pt ps).y)
      ∧ exec (.ptinf rd ps) s = .next (withScalar s rd (if (s.pt ps).inf = true then 1 else 0))
      ∧ (s.Inv → (s.pt ps).inf = true → (s.pt ps).x = 0 ∧ (s.pt ps).y = 0)

/-! ## Field arithmetic -/

/-- 40_field_arithmetic.md R101: MADD. -/
def Obligations.MaddAddsModP : Prop :=
  ∀ (s : State) (rd rs1 rs2 : RegIdx),
    (s.cfg = true → exec (.madd rd rs1 rs2) s = .next (withScalar s rd ((s.reg rs1 + s.reg rs2) % s.cp)))
      ∧ (s.cfg = false → s.fault = false →
          exec (.madd rd rs1 rs2) s = .next { s with fault := true, fcode := 2, fcmd := commandWord 0x40000000 rd rs1 rs2 })

/-- 40_field_arithmetic.md R102: MSUB, an integer subtraction with a result that is never negative. -/
def Obligations.MsubSubtractsModP : Prop :=
  ∀ (s : State) (rd rs1 rs2 : RegIdx),
    (s.cfg = true → 0 < s.cp → ∃ v : Nat, (v : Int) = ((s.reg rs1 : Int) - s.reg rs2) % s.cp
        ∧ exec (.msub rd rs1 rs2) s = .next (withScalar s rd v))
      ∧ (s.cfg = false → s.fault = false →
          exec (.msub rd rs1 rs2) s = .next { s with fault := true, fcode := 2, fcmd := commandWord 0x44000000 rd rs1 rs2 })

/-- 40_field_arithmetic.md R103: MMUL, the full product reduced. -/
def Obligations.MmulMultipliesModP : Prop :=
  ∀ (s : State) (rd rs1 rs2 : RegIdx),
    (s.cfg = true → exec (.mmul rd rs1 rs2) s = .next (withScalar s rd ((s.reg rs1 * s.reg rs2) % s.cp)))
      ∧ (s.cfg = false → s.fault = false →
          exec (.mmul rd rs1 rs2) s = .next { s with fault := true, fcode := 2, fcmd := commandWord 0x48000000 rd rs1 rs2 })

/-- 40_field_arithmetic.md R104 and 00_scope.md R11: MINV writes the unique inverse for every modulus, prime or not, and raises NoInverse
exactly when there is none. -/
def Obligations.MinvWritesTheUniqueInverse : Prop :=
  ∀ (s : State) (rd rs1 : RegIdx),
    (s.cfg = true → 3 < s.cp → Nat.gcd (s.reg rs1 % s.cp) s.cp = 1 →
        ∃ b, IsInverse s.cp (s.reg rs1) b ∧ (∀ b', IsInverse s.cp (s.reg rs1) b' → b' = b)
          ∧ exec (.minv rd rs1) s = .next (withScalar s rd b))
      ∧ (s.cfg = true → s.fault = false → 3 < s.cp → Nat.gcd (s.reg rs1 % s.cp) s.cp ≠ 1 →
          exec (.minv rd rs1) s = .next { s with fault := true, fcode := 4, fcmd := commandWord 0x4C000000 rd rs1 0 })
      ∧ (s.cfg = false → s.fault = false →
          exec (.minv rd rs1) s = .next { s with fault := true, fcode := 2, fcmd := commandWord 0x4C000000 rd rs1 0 })

/-- 40_field_arithmetic.md R105: MEXP writes `red(base)^exponent mod p`, with the exponent raw. -/
def Obligations.MexpRaisesToRawExponent : Prop :=
  ∀ (s : State) (rd base exp : RegIdx),
    (s.cfg = true → 3 < s.cp →
        exec (.mexp rd base exp) s = .next (withScalar s rd ((s.reg base % s.cp) ^ s.reg exp % s.cp)))
      ∧ (s.cfg = false → s.fault = false →
          exec (.mexp rd base exp) s = .next { s with fault := true, fcode := 2, fcmd := commandWord 0x50000000 rd base exp })

/-! ## Curve construction -/

/-- 41_curve_config.md R120 to R125: CINIT's checks in their order, its values, its one commit, and that a failed one leaves the
configuration as it was. -/
def Obligations.CinitCommitsOrLeavesConfiguration : Prop :=
  ∀ (s : State) (b : RegIdx) (hb : b.val ≤ 11),
    let pv := s.reg b
    let an := s.reg ⟨b.val + 1, by omega⟩
    let ad := s.reg ⟨b.val + 2, by omega⟩
    let bn := s.reg ⟨b.val + 3, by omega⟩
    let bd := s.reg ⟨b.val + 4, by omega⟩
    let l := Nat.lcm ad bd
    let w := commandWord 0x20000000 0 b 0
    (s.fault = false → pv ≤ 3 → exec (.cinit b) s = .next { s with fault := true, fcode := 3, fcmd := w })
      ∧ (s.fault = false → 3 < pv → (Nat.gcd (ad % pv) pv ≠ 1 ∨ Nat.gcd (bd % pv) pv ≠ 1) →
          exec (.cinit b) s = .next { s with fault := true, fcode := 4, fcmd := w })
      ∧ (3 < pv → Nat.gcd (ad % pv) pv = 1 → Nat.gcd (bd % pv) pv = 1 →
          ∃ iad ibd, IsInverse pv ad iad ∧ IsInverse pv bd ibd
            ∧ exec (.cinit b) s =
              .next { s with cp := pv, ca := (an * iad * l ^ 4) % pv, cb := (bn * ibd * l ^ 6) % pv, cl := l % pv, cfg := true })

/-- 41_curve_config.md R126: after a successful CINIT the scaling factor is a unit, so DECF does not raise NoInverse under that
configuration. -/
def Obligations.CinitMakesScaleInvertible : Prop :=
  ∀ (s t : State) (b : RegIdx), s.fault = false → exec (.cinit b) s = .next t → t.fault = false →
    Nat.gcd t.cl t.cp = 1 ∧ 1 ≤ t.cl
      ∧ ∀ (u : State) (pd ps : PtIdx), u.cfg = true → u.cp = t.cp → u.cl = t.cl → u.fault = false →
        ∃ v, exec (.decf pd ps) u = .next v ∧ v.fault = false

/-! ## Point operations -/

/-- 42_point_ops.md R140, R141: PCHK writes 1 exactly when the register holds INF or a pair that satisfies the curve equation modulo `p`,
whatever DVCHK is. -/
def Obligations.PchkTestsCurveEquation : Prop :=
  ∀ (s : State) (rd : RegIdx) (ps : PtIdx),
    (s.cfg = true → 0 < s.cp →
        ∃ v, exec (.pchk rd ps) s = .next (withScalar s rd v)
          ∧ ((v = 1 ∧ IsOnCurve s.curve (s.point ps)) ∨ (v = 0 ∧ ¬ IsOnCurve s.curve (s.point ps))))
      ∧ (s.cfg = false → s.fault = false →
          exec (.pchk rd ps) s = .next { s with fault := true, fcode := 2, fcmd := commandWord 0x80000000 rd ps 0 })

/-- 42_point_ops.md R146: PNEG. -/
def Obligations.PnegNegates : Prop :=
  ∀ (s : State) (pd ps : PtIdx),
    (s.cfg = true → (s.pt ps).inf = true →
        exec (.pneg pd ps) s = .next (withPoint s pd { inf := true, x := 0, y := 0 }))
      ∧ (s.cfg = true → 0 < s.cp → (s.pt ps).inf = false →
          exec (.pneg pd ps) s =
            .next (withPoint s pd { inf := false, x := (s.pt ps).x % s.cp, y := (s.cp - (s.pt ps).y % s.cp) % s.cp }))
      ∧ (s.cfg = false → s.fault = false →
          exec (.pneg pd ps) s = .next { s with fault := true, fcode := 2, fcmd := commandWord 0x84000000 pd ps 0 })

/-- 42_point_ops.md R142, R144: the identity and the inverse tests of the group law, in PADD. -/
def Obligations.PaddIdentityAndInverse : Prop :=
  ∀ (s : State) (pd a b : PtIdx), s.cfg = true → s.admits a → s.admits b →
    ((s.pt a).inf = true → exec (.padd pd a b) s = .next (withPoint s pd (s.canonPt b).toReg))
      ∧ ((s.pt b).inf = true → exec (.padd pd a b) s = .next (withPoint s pd (s.canonPt a).toReg))
      ∧ ((s.pt a).inf = false → (s.pt b).inf = false → (s.pt a).x % s.cp = (s.pt b).x % s.cp →
          ((s.pt a).y + (s.pt b).y) % s.cp = 0 →
          exec (.padd pd a b) s = .next (withPoint s pd { inf := true, x := 0, y := 0 }))

/-- 42_point_ops.md R142, R144: the doubling branch of the group law, in PADD. -/
def Obligations.PaddDoublingBranch : Prop :=
  ∀ (s : State) (pd a b : PtIdx), s.cfg = true → 3 < s.cp → s.admits a → s.admits b → (s.pt a).inf = false → (s.pt b).inf = false →
    let x := (s.pt a).x % s.cp
    let y := (s.pt a).y % s.cp
    (s.pt b).x % s.cp = x → (s.pt b).y % s.cp = y → Nat.gcd ((2 * y) % s.cp) s.cp = 1 →
      ∃ (iv m : Nat) (q : PointReg), IsInverse s.cp (2 * (y : Int)) iv ∧ (m : Int) = ((3 * (x : Int) * x + s.ca) * iv) % s.cp
        ∧ IsChord s.cp m x y x q ∧ exec (.padd pd a b) s = .next (withPoint s pd q)

/-- 42_point_ops.md R142, R144: the general branch of the group law, in PADD. -/
def Obligations.PaddGeneralBranch : Prop :=
  ∀ (s : State) (pd a b : PtIdx), s.cfg = true → 3 < s.cp → s.admits a → s.admits b → (s.pt a).inf = false → (s.pt b).inf = false →
    let x1 := (s.pt a).x % s.cp
    let y1 := (s.pt a).y % s.cp
    let x2 := (s.pt b).x % s.cp
    let y2 := (s.pt b).y % s.cp
    x1 ≠ x2 → Int.gcd ((x2 : Int) - x1) s.cp = 1 →
      ∃ (iv m : Nat) (q : PointReg), IsInverse s.cp ((x2 : Int) - x1) iv ∧ (m : Int) = (((y2 : Int) - y1) * iv) % s.cp
        ∧ IsChord s.cp m x1 y1 x2 q ∧ exec (.padd pd a b) s = .next (withPoint s pd q)

/-- 42_point_ops.md R148, 60_exceptions.md R234: PADD raises NoInverse for equal x with y that are neither equal nor opposite, and
whenever the slope's denominator is not a unit; no point is produced. -/
def Obligations.PaddDegenerateRaisesNoInverse : Prop :=
  ∀ (s : State) (pd a b : PtIdx), s.cfg = true → s.fault = false → 3 < s.cp → s.admits a → s.admits b → (s.pt a).inf = false →
    (s.pt b).inf = false →
    let x1 := (s.pt a).x % s.cp
    let y1 := (s.pt a).y % s.cp
    let x2 := (s.pt b).x % s.cp
    let y2 := (s.pt b).y % s.cp
    ((x1 = x2 ∧ y1 ≠ y2 ∧ (y1 + y2) % s.cp ≠ 0) ∨ (x1 = x2 ∧ y1 = y2 ∧ (y1 + y2) % s.cp ≠ 0 ∧ Nat.gcd ((2 * y1) % s.cp) s.cp ≠ 1)
        ∨ (x1 ≠ x2 ∧ Int.gcd ((x2 : Int) - x1) s.cp ≠ 1)) →
      exec (.padd pd a b) s = .next { s with fault := true, fcode := 4, fcmd := commandWord 0x88000000 pd a b }

/-- 42_point_ops.md R145: PDBL in every case, faults included. -/
def Obligations.PdblDoubles : Prop :=
  ∀ (s : State) (pd ps : PtIdx),
    let x := (s.pt ps).x % s.cp
    let y := (s.pt ps).y % s.cp
    let w := commandWord 0x8C000000 pd ps 0
    (s.cfg = true → s.admits ps → ((s.pt ps).inf = true ∨ (2 * y) % s.cp = 0) →
        exec (.pdbl pd ps) s = .next (withPoint s pd { inf := true, x := 0, y := 0 }))
      ∧ (s.cfg = true → 3 < s.cp → s.admits ps → (s.pt ps).inf = false → Nat.gcd ((2 * y) % s.cp) s.cp = 1 →
          ∃ (iv m : Nat) (q : PointReg), IsInverse s.cp (2 * (y : Int)) iv ∧ (m : Int) = ((3 * (x : Int) * x + s.ca) * iv) % s.cp
            ∧ IsChord s.cp m x y x q ∧ exec (.pdbl pd ps) s = .next (withPoint s pd q))
      ∧ (s.cfg = true → s.fault = false → 3 < s.cp → s.admits ps → (s.pt ps).inf = false → (2 * y) % s.cp ≠ 0 →
          Nat.gcd ((2 * y) % s.cp) s.cp ≠ 1 → exec (.pdbl pd ps) s = .next { s with fault := true, fcode := 4, fcmd := w })
      ∧ (s.cfg = true → s.fault = false → ¬ s.admits ps → 0 < s.cp →
          exec (.pdbl pd ps) s = .next { s with fault := true, fcode := 6, fcmd := w })
      ∧ (s.cfg = false → s.fault = false → exec (.pdbl pd ps) s = .next { s with fault := true, fcode := 2, fcmd := w })

/-- 42_point_ops.md R145: PDBL `pd, ps` equals PADD `pd, ps, ps` in every case, faults included, but for the command word in FCMD. -/
def Obligations.PdblEqualsPaddOfItself : Prop :=
  ∀ (s : State) (pd ps : PtIdx), ∃ t u, exec (.pdbl pd ps) s = .next t ∧ exec (.padd pd ps ps) s = .next u
    ∧ { t with fcmd := 0 } = { u with fcmd := 0 }

/-- 42_point_ops.md R147, 60_exceptions.md R236, R239: with DVCHK = 1, PADD, PDBL, SMUL and PORD raise DomainViolation on an operand off
the curve, before any other computation; with DVCHK = 0 no command raises it. -/
def Obligations.DomainCheckComesFirst : Prop :=
  (∀ (s : State) (pd : PtIdx) (rd rk : RegIdx) (a b : PtIdx), s.cfg = true → s.fault = false → 0 < s.cp → ¬ s.admits a →
      exec (.padd pd a b) s = .next { s with fault := true, fcode := 6, fcmd := commandWord 0x88000000 pd a b }
        ∧ exec (.padd pd b a) s = .next { s with fault := true, fcode := 6, fcmd := commandWord 0x88000000 pd b a }
        ∧ exec (.pdbl pd a) s = .next { s with fault := true, fcode := 6, fcmd := commandWord 0x8C000000 pd a 0 }
        ∧ exec (.smul pd rk a) s = .next { s with fault := true, fcode := 6, fcmd := commandWord 0x90000000 pd rk a }
        ∧ exec (.pord rd a) s = .next { s with fault := true, fcode := 6, fcmd := commandWord 0x94000000 rd a 0 })
    ∧ ∀ (i : Instr) (s t : State), s.fault = false → s.dvchk = false → exec i s = .next t → t.fault = true → t.fcode ≠ 6

/-- 42_point_ops.md R143: point addition commutes for every input, on or off the curve, for every modulus, and both orders fault in the
same cases. -/
def Obligations.PaddCommutes : Prop :=
  ∀ (s : State) (pd a b : PtIdx), 3 < s.cp → ∃ t u, exec (.padd pd a b) s = .next t ∧ exec (.padd pd b a) s = .next u
    ∧ { t with fcmd := 0 } = { u with fcmd := 0 }

/-- 93_implementation_defined.md I9: the group law does not read `B`, so with DVCHK = 0 no group command depends on CB. -/
def Obligations.GroupLawIgnoresB : Prop :=
  ∀ (i : Instr) (s t : State) (b' : Nat), s.dvchk = false → i.mnemonic ∈ [.padd, .pdbl, .smul, .pord] → exec i s = .next t →
    exec i { s with cb := b' } = .next { t with cb := b' }

/-! ## Scalar multiplication and order -/

/-- 43_scalar_and_order.md R170: SMUL is the double-and-add loop of the rule on the raw scalar, with its result or its first fault in
loop order, and the loop always ends. -/
def Obligations.SmulIsDoubleAndAdd : Prop :=
  ∀ (s : State) (pd : PtIdx) (rk : RegIdx) (ps : PtIdx),
    let loop := DoubleAndAdd s.curve (s.reg rk) (s.canonPt ps) .inf
    let w := commandWord 0x90000000 pd rk ps
    (∃ out, loop out)
      ∧ (∀ v, s.cfg = true → s.admits ps → loop (.ok v) → exec (.smul pd rk ps) s = .next (withPoint s pd v.toReg))
      ∧ (∀ e, s.cfg = true → s.admits ps → s.fault = false → loop (.error e) →
          e = .noInverse ∧ exec (.smul pd rk ps) s = .next { s with fault := true, fcode := 4, fcmd := w })
      ∧ (s.cfg = true → s.fault = false → 0 < s.cp → ¬ s.admits ps →
          exec (.smul pd rk ps) s = .next { s with fault := true, fcode := 6, fcmd := w })
      ∧ (s.cfg = false → s.fault = false → exec (.smul pd rk ps) s = .next { s with fault := true, fcode := 2, fcmd := w })

/-- 43_scalar_and_order.md R170, R175: SMUL writes INF for `k = 0`, and for INF whatever `k` is; PORD writes 1 for INF and 2 for a point
with `2y = 0` modulo `p`. -/
def Obligations.SmulAndPordCornerCases : Prop :=
  (∀ (s : State) (pd : PtIdx) (rk : RegIdx) (ps : PtIdx), s.cfg = true → s.admits ps → (s.reg rk = 0 ∨ (s.pt ps).inf = true) →
      exec (.smul pd rk ps) s = .next (withPoint s pd { inf := true, x := 0, y := 0 }))
    ∧ (∀ (s : State) (rd : RegIdx) (ps : PtIdx), s.cfg = true → (s.pt ps).inf = true →
        exec (.pord rd ps) s = .next (withScalar s rd 1))
    ∧ ∀ (s : State) (rd : RegIdx) (ps : PtIdx), s.cfg = true → 32 ≤ s.width → s.admits ps → (s.pt ps).inf = false →
      (2 * ((s.pt ps).y % s.cp)) % s.cp = 0 → exec (.pord rd ps) s = .next (withScalar s rd 2)

/-- 43_scalar_and_order.md R175, R176: PORD is the scan of the rule, with its count, its first fault in loop order or OrderOverflow at
`n = 2^W - 1`, and the scan always ends. The rule's loop is stated for every width, so that its limit can be seen at a small one. -/
def Obligations.PordIsOrderScan : Prop :=
  ∀ (s : State) (rd : RegIdx) (ps : PtIdx), 1 ≤ s.width →
    let scan := OrderScan s.curve s.width (s.canonPt ps) (s.canonPt ps) 1
    let w := commandWord 0x94000000 rd ps 0
    (∃ out, scan out)
      ∧ (∀ n, s.cfg = true → s.admits ps → scan (.ok n) → exec (.pord rd ps) s = .next (withScalar s rd n))
      ∧ (s.cfg = true → s.admits ps → s.fault = false → scan (.error .orderOverflow) →
          exec (.pord rd ps) s = .next { s with fault := true, fcode := 5, fcmd := w })
      ∧ (∀ e, s.cfg = true → s.admits ps → s.fault = false → scan (.error e) → e ≠ .orderOverflow →
          e = .noInverse ∧ exec (.pord rd ps) s = .next { s with fault := true, fcode := 4, fcmd := w })
      ∧ (s.cfg = true → s.fault = false → 0 < s.cp → ¬ s.admits ps →
          exec (.pord rd ps) s = .next { s with fault := true, fcode := 6, fcmd := w })
      ∧ (s.cfg = false → s.fault = false → exec (.pord rd ps) s = .next { s with fault := true, fcode := 2, fcmd := w })

/-! ## Fractional codec -/

/-- 44_fractional_codec.md R190: ENCF. -/
def Obligations.EncfScales : Prop :=
  ∀ (s : State) (pd ps : PtIdx),
    (s.cfg = true → (s.pt ps).inf = true →
        exec (.encf pd ps) s = .next (withPoint s pd { inf := true, x := 0, y := 0 }))
      ∧ (s.cfg = true → (s.pt ps).inf = false →
          exec (.encf pd ps) s =
            .next (withPoint s pd { inf := false, x := ((s.pt ps).x * s.cl ^ 2) % s.cp, y := ((s.pt ps).y * s.cl ^ 3) % s.cp }))
      ∧ (s.cfg = false → s.fault = false →
          exec (.encf pd ps) s = .next { s with fault := true, fcode := 2, fcmd := commandWord 0xA0000000 pd ps 0 })

/-- 44_fractional_codec.md R191: DECF, with INF going to INF without a look at `l`. -/
def Obligations.DecfUnscales : Prop :=
  ∀ (s : State) (pd ps : PtIdx),
    let w := commandWord 0xA4000000 pd ps 0
    (s.cfg = true → (s.pt ps).inf = true →
        exec (.decf pd ps) s = .next (withPoint s pd { inf := true, x := 0, y := 0 }))
      ∧ (s.cfg = true → 3 < s.cp → (s.pt ps).inf = false → Nat.gcd (s.cl % s.cp) s.cp = 1 →
          ∃ li, IsInverse s.cp s.cl li
            ∧ exec (.decf pd ps) s =
              .next (withPoint s pd { inf := false, x := ((s.pt ps).x * li ^ 2) % s.cp, y := ((s.pt ps).y * li ^ 3) % s.cp }))
      ∧ (s.cfg = true → s.fault = false → (s.pt ps).inf = false → Nat.gcd (s.cl % s.cp) s.cp ≠ 1 → 3 < s.cp →
          exec (.decf pd ps) s = .next { s with fault := true, fcode := 4, fcmd := w })
      ∧ (s.cfg = false → s.fault = false → exec (.decf pd ps) s = .next { s with fault := true, fcode := 2, fcmd := w })

/-- 44_fractional_codec.md R192: DECF of ENCF, and ENCF of DECF, give the canonical point value, on the curve or off it. -/
def Obligations.CodecRoundTrip : Prop :=
  ∀ (s : State) (pd qd ps : PtIdx), s.Inv → s.cfg = true →
    (∃ t u, exec (.encf pd ps) s = .next t ∧ exec (.decf qd pd) t = .next u ∧ u.point qd = (s.point ps).canon s.cp)
      ∧ ∃ t u, exec (.decf pd ps) s = .next t ∧ exec (.encf qd pd) t = .next u ∧ u.point qd = (s.point ps).canon s.cp
end

