-- ==== Sys2Proof/Laws/Decode.lean ====
section
/-! SUPPORT. Fields of packed words, the opcode map read back, and what the decoder can answer. -/

namespace Sys2Proof

/-! ## Fields -/

theorem Word.field_lt (w : Word) (lo n : Nat) : Word.field w lo n < 2 ^ n := Nat.mod_lt _ (by positivity)

/-- The value of a packed word, for an opcode of six bits. -/
theorem Word.pack_toNat {op : Nat} (h : op < 64) (f1 f2 f3 : Fin 16) :
    (Word.pack op f1 f2 f3).toNat = op * 2 ^ 26 + f1.val * 2 ^ 22 + f2.val * 2 ^ 18 + f3.val * 2 ^ 14 := by
  have := f1.isLt; have := f2.isLt; have := f3.isLt
  rw [Word.pack, BitVec.toNat_ofNat, Nat.mod_eq_of_lt (by omega)]

theorem Word.op_pack {op : Nat} (h : op < 64) (f1 f2 f3 : Fin 16) : Word.op (Word.pack op f1 f2 f3) = op := by
  have := f1.isLt; have := f2.isLt; have := f3.isLt
  rw [Word.op, Word.field, Word.pack_toNat h, Nat.shiftRight_eq_div_pow]; omega

theorem Word.f1_pack {op : Nat} (h : op < 64) (f1 f2 f3 : Fin 16) : Word.f1 (Word.pack op f1 f2 f3) = f1 := by
  have := f1.isLt; have := f2.isLt; have := f3.isLt
  apply Fin.ext
  simp only [Word.f1, Word.field]
  rw [Word.pack_toNat h, Nat.shiftRight_eq_div_pow]; omega

theorem Word.f2_pack {op : Nat} (h : op < 64) (f1 f2 f3 : Fin 16) : Word.f2 (Word.pack op f1 f2 f3) = f2 := by
  have := f1.isLt; have := f2.isLt; have := f3.isLt
  apply Fin.ext
  simp only [Word.f2, Word.field]
  rw [Word.pack_toNat h, Nat.shiftRight_eq_div_pow]; omega

theorem Word.f3_pack {op : Nat} (h : op < 64) (f1 f2 f3 : Fin 16) : Word.f3 (Word.pack op f1 f2 f3) = f3 := by
  have := f1.isLt; have := f2.isLt; have := f3.isLt
  apply Fin.ext
  simp only [Word.f3, Word.field]
  rw [Word.pack_toNat h, Nat.shiftRight_eq_div_pow]; omega

theorem Word.res_pack {op : Nat} (h : op < 64) (f1 f2 f3 : Fin 16) : Word.res (Word.pack op f1 f2 f3) = 0 := by
  have := f1.isLt; have := f2.isLt; have := f3.isLt
  rw [Word.res, Word.field, Word.pack_toNat h, Nat.shiftRight_eq_div_pow]; omega

/-- A word with a zero `res` is the packing of its own fields. -/
theorem Word.pack_fields (w : Word) (h : Word.res w = 0) : Word.pack (Word.op w) (Word.f1 w) (Word.f2 w) (Word.f3 w) = w := by
  have hw := w.isLt
  apply BitVec.eq_of_toNat_eq
  rw [Word.pack_toNat (by simpa [Word.op] using Word.field_lt w 26 6)]
  simp only [Word.op, Word.f1, Word.f2, Word.f3, Word.res, Word.field, Nat.shiftRight_eq_div_pow] at h ⊢
  omega

/-! ## The opcode map -/

theorem Mnemonic.opcode_lt (m : Mnemonic) : m.opcode < 64 := by cases m <;> decide

@[simp] theorem Mnemonic.ofOpcode_opcode (m : Mnemonic) : Mnemonic.ofOpcode m.opcode = some m := by cases m <;> decide

theorem Mnemonic.opcode_of_ofOpcode {op : Nat} {m : Mnemonic} (h : Mnemonic.ofOpcode op = some m) : m.opcode = op := by
  have := List.find?_some h
  simpa using this

theorem Mnemonic.mem_all (m : Mnemonic) : m ∈ Mnemonic.all := by cases m <;> decide

/-- No two rows share an opcode. -/
theorem Mnemonic.opcode_injective {m n : Mnemonic} (h : m.opcode = n.opcode) : m = n := by
  have := Mnemonic.ofOpcode_opcode m
  rw [h, Mnemonic.ofOpcode_opcode] at this
  exact (Option.some.inj this).symm

/-! ## What the decoder answers -/

@[simp] theorem Mnemonic.mnemonic_assemble (m : Mnemonic) (f1 f2 f3 : Fin 16) (beat : Nat) :
    (m.assemble f1 f2 f3 beat).mnemonic = m := by cases m <;> rfl

/-- The six tests of 30_encoding.md R82, as one condition on the row and the fields. -/
def Mnemonic.accepts (m : Mnemonic) (f1 f2 f3 : Fin 16) : Prop :=
  (m.usesF1 = false → f1 = 0) ∧ (m.usesF2 = false → f2 = 0) ∧ (m.usesF3 = false → f3 = 0)
    ∧ (m = .rdcsr → f2.val ≤ Config.lastCsr) ∧ (m = .wrcsr → f1.val = Config.ctrlCsr) ∧ (m = .cinit → f2.val ≤ Config.lastBase)

/-- Everything a successful decoding says. -/
theorem decode_ok {w : Word} {beat : Nat} {i : Instr} (h : decode w beat = .ok i) :
    ∃ m : Mnemonic, m.opcode = Word.op w ∧ Word.res w = 0 ∧ m.accepts (Word.f1 w) (Word.f2 w) (Word.f3 w)
      ∧ i = m.assemble (Word.f1 w) (Word.f2 w) (Word.f3 w) beat := by
  unfold decode at h
  split at h
  · cases h
  · rename_i m hm
    split at h; · cases h
    split at h; · cases h
    split at h; · cases h
    split at h; · cases h
    split at h; · cases h
    rename_i hres hun hrd hwr hci
    refine ⟨m, Mnemonic.opcode_of_ofOpcode hm, by simpa using hres, ?_, (Except.ok.inj h).symm⟩
    simp only [not_or, not_and, not_not, not_lt] at hun hrd hwr hci
    exact ⟨hun.1, hun.2.1, hun.2.2, hrd, hwr, hci⟩

/-- When a word decodes, and to what. -/
theorem decode_of_accepts {w : Word} {m : Mnemonic} (hop : m.opcode = Word.op w) (hres : Word.res w = 0)
    (hacc : m.accepts (Word.f1 w) (Word.f2 w) (Word.f3 w)) (beat : Nat) :
    decode w beat = .ok (m.assemble (Word.f1 w) (Word.f2 w) (Word.f3 w) beat) := by
  obtain ⟨h1, h2, h3, hr, hw, hc⟩ := hacc
  unfold decode
  rw [← hop, Mnemonic.ofOpcode_opcode]
  simp only
  rw [if_neg (by simpa using hres), if_neg, if_neg, if_neg, if_neg]
  · rintro ⟨hm, hlt⟩; exact absurd (hc hm) (by omega)
  · rintro ⟨hm, hne⟩; exact hne (hw hm)
  · rintro ⟨hm, hlt⟩; exact absurd (hr hm) (by omega)
  · rintro (⟨hu, hne⟩ | ⟨hu, hne⟩ | ⟨hu, hne⟩)
    · exact hne (h1 hu)
    · exact hne (h2 hu)
    · exact hne (h3 hu)

/-- The word of a row with accepted fields decodes to that row's command. -/
theorem decode_pack {m : Mnemonic} {f1 f2 f3 : Fin 16} (hacc : m.accepts f1 f2 f3) (beat : Nat) :
    decode (Word.pack m.opcode f1 f2 f3) beat = .ok (m.assemble f1 f2 f3 beat) := by
  have hlt := m.opcode_lt
  have h := decode_of_accepts (w := Word.pack m.opcode f1 f2 f3) (m := m) (Word.op_pack hlt f1 f2 f3).symm (Word.res_pack hlt f1 f2 f3)
    (by rwa [Word.f1_pack hlt, Word.f2_pack hlt, Word.f3_pack hlt]) beat
  rwa [Word.f1_pack hlt, Word.f2_pack hlt, Word.f3_pack hlt] at h

end Sys2Proof
end

