-- ==== Sys2Proof/Laws/State.lean ====
section
/-! SUPPORT. One lemma for each field under each update of the state, so that no proof unfolds an update. -/

namespace Sys2Proof.Machine

/-! ## `setReg`: only `r` changes -/

@[simp] theorem State.setReg_r (s : State) (i : RegIdx) (v : Nat) : (s.setReg i v).r = s.r.set i.val v := rfl
@[simp] theorem State.setReg_p (s : State) (i : RegIdx) (v : Nat) : (s.setReg i v).p = s.p := rfl
@[simp] theorem State.setReg_cfg (s : State) (i : RegIdx) (v : Nat) : (s.setReg i v).cfg = s.cfg := rfl
@[simp] theorem State.setReg_fault (s : State) (i : RegIdx) (v : Nat) : (s.setReg i v).fault = s.fault := rfl
@[simp] theorem State.setReg_fcode (s : State) (i : RegIdx) (v : Nat) : (s.setReg i v).fcode = s.fcode := rfl
@[simp] theorem State.setReg_fcmd (s : State) (i : RegIdx) (v : Nat) : (s.setReg i v).fcmd = s.fcmd := rfl
@[simp] theorem State.setReg_dvchk (s : State) (i : RegIdx) (v : Nat) : (s.setReg i v).dvchk = s.dvchk := rfl
@[simp] theorem State.setReg_cp (s : State) (i : RegIdx) (v : Nat) : (s.setReg i v).cp = s.cp := rfl
@[simp] theorem State.setReg_ca (s : State) (i : RegIdx) (v : Nat) : (s.setReg i v).ca = s.ca := rfl
@[simp] theorem State.setReg_cb (s : State) (i : RegIdx) (v : Nat) : (s.setReg i v).cb = s.cb := rfl
@[simp] theorem State.setReg_cl (s : State) (i : RegIdx) (v : Nat) : (s.setReg i v).cl = s.cl := rfl
@[simp] theorem State.setReg_rx (s : State) (i : RegIdx) (v : Nat) : (s.setReg i v).rx = s.rx := rfl
@[simp] theorem State.setReg_width (s : State) (i : RegIdx) (v : Nat) : (s.setReg i v).width = s.width := rfl
@[simp] theorem State.setReg_units (s : State) (i : RegIdx) (v : Nat) : (s.setReg i v).units = s.units := rfl
@[simp] theorem State.setReg_ready (s : State) (i : RegIdx) (v : Nat) : (s.setReg i v).ready = s.ready := rfl
@[simp] theorem State.setReg_sent (s : State) (i : RegIdx) (v : Nat) : (s.setReg i v).sent = s.sent := rfl

/-! ## `setPtReg` and `setPt`: only `p` changes -/

@[simp] theorem State.setPtReg_r (s : State) (i : PtIdx) (q : PointReg) : (s.setPtReg i q).r = s.r := rfl
@[simp] theorem State.setPtReg_p (s : State) (i : PtIdx) (q : PointReg) : (s.setPtReg i q).p = s.p.set i.val q := rfl
@[simp] theorem State.setPtReg_cfg (s : State) (i : PtIdx) (q : PointReg) : (s.setPtReg i q).cfg = s.cfg := rfl
@[simp] theorem State.setPtReg_fault (s : State) (i : PtIdx) (q : PointReg) : (s.setPtReg i q).fault = s.fault := rfl
@[simp] theorem State.setPtReg_fcode (s : State) (i : PtIdx) (q : PointReg) : (s.setPtReg i q).fcode = s.fcode := rfl
@[simp] theorem State.setPtReg_fcmd (s : State) (i : PtIdx) (q : PointReg) : (s.setPtReg i q).fcmd = s.fcmd := rfl
@[simp] theorem State.setPtReg_dvchk (s : State) (i : PtIdx) (q : PointReg) : (s.setPtReg i q).dvchk = s.dvchk := rfl
@[simp] theorem State.setPtReg_cp (s : State) (i : PtIdx) (q : PointReg) : (s.setPtReg i q).cp = s.cp := rfl
@[simp] theorem State.setPtReg_ca (s : State) (i : PtIdx) (q : PointReg) : (s.setPtReg i q).ca = s.ca := rfl
@[simp] theorem State.setPtReg_cb (s : State) (i : PtIdx) (q : PointReg) : (s.setPtReg i q).cb = s.cb := rfl
@[simp] theorem State.setPtReg_cl (s : State) (i : PtIdx) (q : PointReg) : (s.setPtReg i q).cl = s.cl := rfl
@[simp] theorem State.setPtReg_rx (s : State) (i : PtIdx) (q : PointReg) : (s.setPtReg i q).rx = s.rx := rfl
@[simp] theorem State.setPtReg_width (s : State) (i : PtIdx) (q : PointReg) : (s.setPtReg i q).width = s.width := rfl
@[simp] theorem State.setPtReg_units (s : State) (i : PtIdx) (q : PointReg) : (s.setPtReg i q).units = s.units := rfl
@[simp] theorem State.setPtReg_ready (s : State) (i : PtIdx) (q : PointReg) : (s.setPtReg i q).ready = s.ready := rfl
@[simp] theorem State.setPtReg_sent (s : State) (i : PtIdx) (q : PointReg) : (s.setPtReg i q).sent = s.sent := rfl

@[simp] theorem State.setPt_eq (s : State) (i : PtIdx) (v : Point) : s.setPt i v = s.setPtReg i v.toReg := rfl

/-! ## `setCurve`: CINIT's commit -/

@[simp] theorem State.setCurve_r (s : State) (c : Curve) : (s.setCurve c).r = s.r := rfl
@[simp] theorem State.setCurve_p (s : State) (c : Curve) : (s.setCurve c).p = s.p := rfl
@[simp] theorem State.setCurve_cfg (s : State) (c : Curve) : (s.setCurve c).cfg = true := rfl
@[simp] theorem State.setCurve_fault (s : State) (c : Curve) : (s.setCurve c).fault = s.fault := rfl
@[simp] theorem State.setCurve_fcode (s : State) (c : Curve) : (s.setCurve c).fcode = s.fcode := rfl
@[simp] theorem State.setCurve_fcmd (s : State) (c : Curve) : (s.setCurve c).fcmd = s.fcmd := rfl
@[simp] theorem State.setCurve_dvchk (s : State) (c : Curve) : (s.setCurve c).dvchk = s.dvchk := rfl
@[simp] theorem State.setCurve_cp (s : State) (c : Curve) : (s.setCurve c).cp = c.p := rfl
@[simp] theorem State.setCurve_ca (s : State) (c : Curve) : (s.setCurve c).ca = c.a := rfl
@[simp] theorem State.setCurve_cb (s : State) (c : Curve) : (s.setCurve c).cb = c.b := rfl
@[simp] theorem State.setCurve_cl (s : State) (c : Curve) : (s.setCurve c).cl = c.l := rfl
@[simp] theorem State.setCurve_rx (s : State) (c : Curve) : (s.setCurve c).rx = s.rx := rfl
@[simp] theorem State.setCurve_width (s : State) (c : Curve) : (s.setCurve c).width = s.width := rfl
@[simp] theorem State.setCurve_units (s : State) (c : Curve) : (s.setCurve c).units = s.units := rfl
@[simp] theorem State.setCurve_ready (s : State) (c : Curve) : (s.setCurve c).ready = s.ready := rfl
@[simp] theorem State.setCurve_sent (s : State) (c : Curve) : (s.setCurve c).sent = s.sent := rfl

/-! ## `clearFault`: the return -/

@[simp] theorem State.clearFault_r (s : State) : (s.clearFault).r = s.r := rfl
@[simp] theorem State.clearFault_p (s : State) : (s.clearFault).p = s.p := rfl
@[simp] theorem State.clearFault_cfg (s : State) : (s.clearFault).cfg = s.cfg := rfl
@[simp] theorem State.clearFault_fault (s : State) : (s.clearFault).fault = false := rfl
@[simp] theorem State.clearFault_fcode (s : State) : (s.clearFault).fcode = 0 := rfl
@[simp] theorem State.clearFault_fcmd (s : State) : (s.clearFault).fcmd = 0 := rfl
@[simp] theorem State.clearFault_dvchk (s : State) : (s.clearFault).dvchk = s.dvchk := rfl
@[simp] theorem State.clearFault_cp (s : State) : (s.clearFault).cp = s.cp := rfl
@[simp] theorem State.clearFault_ca (s : State) : (s.clearFault).ca = s.ca := rfl
@[simp] theorem State.clearFault_cb (s : State) : (s.clearFault).cb = s.cb := rfl
@[simp] theorem State.clearFault_cl (s : State) : (s.clearFault).cl = s.cl := rfl
@[simp] theorem State.clearFault_rx (s : State) : (s.clearFault).rx = s.rx := rfl
@[simp] theorem State.clearFault_width (s : State) : (s.clearFault).width = s.width := rfl
@[simp] theorem State.clearFault_units (s : State) : (s.clearFault).units = s.units := rfl
@[simp] theorem State.clearFault_ready (s : State) : (s.clearFault).ready = s.ready := rfl
@[simp] theorem State.clearFault_sent (s : State) : (s.clearFault).sent = s.sent := rfl

/-! ## `commitFault`: the exception entry -/

@[simp] theorem State.commitFault_r (s : State) (e : Raise) (w : Word) : (s.commitFault e w).r = s.r := by
  unfold State.commitFault; split <;> rfl
@[simp] theorem State.commitFault_p (s : State) (e : Raise) (w : Word) : (s.commitFault e w).p = s.p := by
  unfold State.commitFault; split <;> rfl
@[simp] theorem State.commitFault_cfg (s : State) (e : Raise) (w : Word) : (s.commitFault e w).cfg = s.cfg := by
  unfold State.commitFault; split <;> rfl
@[simp] theorem State.commitFault_dvchk (s : State) (e : Raise) (w : Word) : (s.commitFault e w).dvchk = s.dvchk := by
  unfold State.commitFault; split <;> rfl
@[simp] theorem State.commitFault_cp (s : State) (e : Raise) (w : Word) : (s.commitFault e w).cp = s.cp := by
  unfold State.commitFault; split <;> rfl
@[simp] theorem State.commitFault_ca (s : State) (e : Raise) (w : Word) : (s.commitFault e w).ca = s.ca := by
  unfold State.commitFault; split <;> rfl
@[simp] theorem State.commitFault_cb (s : State) (e : Raise) (w : Word) : (s.commitFault e w).cb = s.cb := by
  unfold State.commitFault; split <;> rfl
@[simp] theorem State.commitFault_cl (s : State) (e : Raise) (w : Word) : (s.commitFault e w).cl = s.cl := by
  unfold State.commitFault; split <;> rfl
@[simp] theorem State.commitFault_rx (s : State) (e : Raise) (w : Word) : (s.commitFault e w).rx = s.rx := by
  unfold State.commitFault; split <;> rfl
@[simp] theorem State.commitFault_width (s : State) (e : Raise) (w : Word) : (s.commitFault e w).width = s.width := by
  unfold State.commitFault; split <;> rfl
@[simp] theorem State.commitFault_units (s : State) (e : Raise) (w : Word) : (s.commitFault e w).units = s.units := by
  unfold State.commitFault; split <;> rfl
@[simp] theorem State.commitFault_ready (s : State) (e : Raise) (w : Word) : (s.commitFault e w).ready = s.ready := by
  unfold State.commitFault; split <;> rfl
@[simp] theorem State.commitFault_sent (s : State) (e : Raise) (w : Word) : (s.commitFault e w).sent = s.sent := by
  unfold State.commitFault; split <;> rfl
@[simp] theorem State.commitFault_fault (s : State) (e : Raise) (w : Word) : (s.commitFault e w).fault = true := by
  unfold State.commitFault; split <;> simp_all

/-- With no fault pending, the three fault registers are written and nothing else. -/
theorem State.commitFault_of_clear {s : State} (h : s.fault = false) (e : Raise) (w : Word) :
    s.commitFault e w = { s with fault := true, fcode := e.code, fcmd := w } := by
  simp [State.commitFault, h]

/-- The first fault wins: with a fault pending, nothing changes. -/
theorem State.commitFault_of_pending {s : State} (h : s.fault = true) (e : Raise) (w : Word) : s.commitFault e w = s := by
  simp [State.commitFault, h]

end Sys2Proof.Machine
end

