-- ==== Sys2Proof/Laws/Registers.lean ====
section
/-! SUPPORT. Read after write for the two register files, and how a stored point value reads back. -/

namespace Sys2Proof.Machine

theorem State.reg_setReg (s : State) (i j : RegIdx) (v : Nat) : (s.setReg i v).reg j = if j = i then v else s.reg j := by
  simp [State.setReg, State.reg, Vector.getElem_set, eq_comm, Fin.ext_iff]

@[simp] theorem State.reg_setReg_self (s : State) (i : RegIdx) (v : Nat) : (s.setReg i v).reg i = v := by
  simp [State.reg_setReg]

theorem State.reg_setReg_of_ne (s : State) {i j : RegIdx} (h : j ≠ i) (v : Nat) : (s.setReg i v).reg j = s.reg j := by
  simp [State.reg_setReg, h]

theorem State.pt_setPtReg (s : State) (i j : PtIdx) (q : PointReg) : (s.setPtReg i q).pt j = if j = i then q else s.pt j := by
  simp [State.setPtReg, State.pt, Vector.getElem_set, eq_comm, Fin.ext_iff]

@[simp] theorem State.pt_setPtReg_self (s : State) (i : PtIdx) (q : PointReg) : (s.setPtReg i q).pt i = q := by
  simp [State.pt_setPtReg]

theorem State.pt_setPtReg_of_ne (s : State) {i j : PtIdx} (h : j ≠ i) (q : PointReg) : (s.setPtReg i q).pt j = s.pt j := by
  simp [State.pt_setPtReg, h]

@[simp] theorem State.pt_setReg (s : State) (i : RegIdx) (v : Nat) (j : PtIdx) : (s.setReg i v).pt j = s.pt j := rfl
@[simp] theorem State.reg_setPtReg (s : State) (i : PtIdx) (q : PointReg) (j : RegIdx) : (s.setPtReg i q).reg j = s.reg j := rfl

/-- Two states with the same register file read the same scalar register. -/
theorem State.reg_congr {s t : State} (h : t.r = s.r) (j : RegIdx) : t.reg j = s.reg j := by simp [State.reg, h]

/-- Two states with the same point file read the same point register. -/
theorem State.pt_congr {s t : State} (h : t.p = s.p) (j : PtIdx) : t.pt j = s.pt j := by simp [State.pt, h]

@[simp] theorem Point.toReg_value (v : Point) : v.toReg.value = v := by cases v <;> rfl

@[simp] theorem Point.canon_canon (p : Nat) (v : Point) : (v.canon p).canon p = v.canon p := by
  cases v <;> simp [Point.canon]

theorem State.canonPt_of_inf {s : State} {i : PtIdx} (h : (s.pt i).inf = true) : s.canonPt i = .inf := by
  simp [State.canonPt, State.point, PointReg.value, h, Point.canon]

theorem State.canonPt_of_aff {s : State} {i : PtIdx} (h : (s.pt i).inf = false) :
    s.canonPt i = .aff ((s.pt i).x % s.cp) ((s.pt i).y % s.cp) := by
  simp [State.canonPt, State.point, PointReg.value, h, Point.canon]

end Sys2Proof.Machine
end

