-- ==== Sys2Proof/Laws/Ops.lean ====
section
/-! SUPPORT. Everything the shared operations of Machine/Ops.lean can do, said once. -/

namespace Sys2Proof.Machine

@[simp] theorem State.conclude_ok (s t : State) (w : Word) : s.conclude w (.ok t) = .next t := rfl
@[simp] theorem State.conclude_error (s : State) (w : Word) (e : Raise) : s.conclude w (.error e) = .next (s.commitFault e w) := rfl

/-- A concluded command always answers a next state: its writes, or the fault commit. -/
theorem State.conclude_next {s t : State} {w : Word} {r : Except Raise State} (h : s.conclude w r = .next t) :
    r = .ok t ∨ ∃ e, r = .error e ∧ t = s.commitFault e w := by
  cases r with
  | ok u => simp only [State.conclude_ok, Host.Outcome.next.injEq] at h; exact .inl (by rw [h])
  | error e => simp only [State.conclude_error, Host.Outcome.next.injEq] at h; exact .inr ⟨e, rfl, h.symm⟩

theorem State.computing_of_cfg {s : State} (h : s.cfg = true) (w : Word) (body : State → Except Raise State) :
    s.computing w body = s.conclude w (body s) := by simp [State.computing, h]

theorem State.computing_of_no_cfg {s : State} (h : s.cfg = false) (w : Word) (body : State → Except Raise State) :
    s.computing w body = .next (s.commitFault .notConfigured w) := by simp [State.computing, h]

/-- What a computing command can do: NotConfigured, its own fault, or its writes. -/
theorem State.computing_next {s t : State} {w : Word} {body : State → Except Raise State} (h : s.computing w body = .next t) :
    (s.cfg = false ∧ t = s.commitFault .notConfigured w)
      ∨ (s.cfg = true ∧ ((body s = .ok t) ∨ ∃ e, body s = .error e ∧ t = s.commitFault e w)) := by
  cases hc : s.cfg with
  | false => rw [State.computing_of_no_cfg hc, Host.Outcome.next.injEq] at h; exact .inl ⟨rfl, h.symm⟩
  | true => rw [State.computing_of_cfg hc] at h; exact .inr ⟨rfl, State.conclude_next h⟩

/-- A computing command never waits and is never refused. -/
theorem State.computing_completes (s : State) (w : Word) (body : State → Except Raise State) : ∃ t, s.computing w body = .next t := by
  unfold State.computing State.conclude
  split
  · split <;> exact ⟨_, rfl⟩
  · exact ⟨_, rfl⟩

/-- The domain check passes or raises DomainViolation. -/
theorem State.domainCheck_cases (s : State) (v : Point) :
    (s.domainCheck v = .ok () ∧ (s.dvchk = true → onCurve s.curve v = true))
      ∨ (s.domainCheck v = .error .domainViolation ∧ s.dvchk = true ∧ onCurve s.curve v = false) := by
  unfold State.domainCheck
  cases s.dvchk <;> cases onCurve s.curve v <;> simp

theorem State.sendBeat_next {s t : State} {v : Nat} (h : s.sendBeat v = .next t) :
    s.ready = true ∧ t = { s with sent := s.sent ++ [v] } := by
  unfold State.sendBeat at h
  split at h
  · rename_i hr
    exact ⟨hr, by simpa using h.symm⟩
  · cases h

theorem Raise.code_injective {e f : Raise} (h : e.code = f.code) : e = f := by
  cases e <;> cases f <;> first | rfl | (exact absurd h (by decide))

end Sys2Proof.Machine
end

