-- ==== Sys2Proof/Laws/Channel.lean ====
section
/-! SUPPORT. Framing, fetching and stepping: what each can do, said once. -/

namespace Sys2Proof.Machine

/-- Every word's number of units depends on `w[31:26]` alone (30_encoding.md R77). -/
theorem hasBeat_iff (w : Word) : Word.hasBeat w = true ↔ w.extractLsb' 26 6 = 0x01#6 := by
  rw [Word.hasBeat, beq_iff_eq, ← BitVec.toNat_inj]
  simp [Word.op, Word.field, Mnemonic.opcode]

theorem toNat_lt_word (w : Word) : w.toNat < 4294967296 := w.isLt

@[simp] theorem ofNat_toNat_word (w : Word) : BitVec.ofNat 32 w.toNat = w := by simp

/-- The word of a unit that has 32 bits is the unit. -/
theorem wordOfUnit_of_lt {u : Nat} (h : u < 2 ^ 32) : wordOfUnit u = BitVec.ofNat 32 u := if_pos h

@[simp] theorem wordOfUnit_toNat (w : Word) : wordOfUnit w.toNat = w := by
  rw [wordOfUnit_of_lt w.isLt, ofNat_toNat_word]

/-- The units that a word takes, from the rest of the channel: its beat, if it has one. -/
theorem unitsOfWord_append (w : Word) (beat : Nat) (rest : List Nat) :
    unitsOfWord w beat ++ rest = w.toNat :: if Word.hasBeat w then beat :: rest else rest := by
  by_cases h : Word.hasBeat w = true
  · rw [unitsOfWord, if_pos ((hasBeat_iff w).mp h), if_pos h]; rfl
  · rw [unitsOfWord, if_neg (fun hc => h ((hasBeat_iff w).mpr hc)), if_neg h]; rfl

/-- Framing of any unit that a host may send, with its beat and what follows (30_encoding.md R77; 70_reset_and_hazards.md R261). -/
theorem frame_cons {W u : Nat} (beat : Nat) (rest : List Nat) (hu : u < 2 ^ 32 ∨ u < 2 ^ W) (hb : beat < 2 ^ W) :
    frame W (u :: if Word.hasBeat (wordOfUnit u) then beat :: rest else rest)
      = .command (wordOfUnit u) (if Word.hasBeat (wordOfUnit u) then beat else 0) rest := by
  by_cases h : Word.hasBeat (wordOfUnit u) = true
  · simp only [frame, if_pos hu, if_pos h, if_pos hb]
  · simp only [frame, if_pos hu, if_neg h]

/-- Framing of the units of any one word, legal or not, with what follows (30_encoding.md R77). -/
theorem frame_unitsOfWord (W : Nat) (w : Word) (beat : Nat) (rest : List Nat) (hb : beat < 2 ^ W) :
    frame W (unitsOfWord w beat ++ rest) = .command w (if Word.hasBeat w then beat else 0) rest := by
  have h := frame_cons (u := w.toNat) beat rest (.inl w.isLt) hb
  rwa [wordOfUnit_toNat, ← unitsOfWord_append] at h

/-- A word without a beat decodes the same whatever beat is offered to the decoder. -/
theorem decode_beat_irrelevant {w : Word} (h : Word.hasBeat w = false) (b b' : Nat) : decode w b = decode w b' := by
  unfold decode
  split
  · rfl
  · rename_i m hm
    have hne : m ≠ .ldr := by
      rintro rfl
      have := Mnemonic.opcode_of_ofOpcode hm
      rw [Word.hasBeat, this] at h
      simp at h
    have : m.assemble (Word.f1 w) (Word.f2 w) (Word.f3 w) b = m.assemble (Word.f1 w) (Word.f2 w) (Word.f3 w) b' := by
      cases m <;> first | rfl | exact absurd rfl hne
    rw [this]

/-- A successful or failing decoding does not depend on the beat but for LDR's literal. -/
theorem decode_error_beat {w : Word} {b : Nat} {e : Reject} (h : decode w b = .error e) (b' : Nat) : decode w b' = .error e := by
  unfold decode at h ⊢
  split at h
  · rename_i hm; exact h
  · rename_i m hm
    split at h
    · rename_i hc; rw [if_pos hc]; exact h
    rename_i hc1
    split at h
    · rename_i hc; rw [if_neg hc1, if_pos hc]; exact h
    rename_i hc2
    split at h
    · rename_i hc; rw [if_neg hc1, if_neg hc2, if_pos hc]; exact h
    rename_i hc3
    split at h
    · rename_i hc; rw [if_neg hc1, if_neg hc2, if_neg hc3, if_pos hc]; exact h
    rename_i hc4
    split at h
    · rename_i hc; rw [if_neg hc1, if_neg hc2, if_neg hc3, if_neg hc4, if_pos hc]; exact h
    · cases h

/-- The word of a command, from the value its row's `match` has (30_encoding.md R75). -/
theorem encodeWord_eq_commandWord {i : Instr} {base : Nat} (h : i.mnemonic.opcode * 67108864 = base) :
    encodeWord i = commandWord base i.f1 i.f2 i.f3 := by
  subst h
  rfl

/-- The row of a legal word does not depend on the beat. -/
theorem mnemonic_of_decode {w : Word} {b b' : Nat} {i j : Instr} (hi : decode w b = .ok i) (hj : decode w b' = .ok j) :
    i.mnemonic = j.mnemonic := by
  obtain ⟨m, hm, -, -, rfl⟩ := decode_ok hi
  obtain ⟨n, hn, -, -, rfl⟩ := decode_ok hj
  simpa using Mnemonic.opcode_injective (hm.trans hn.symm)

/-- A record of an illegal word (60_exceptions.md R237). -/
theorem recordOk_of_error {w : Word} {b : Nat} {e : Reject} (h : decode w b = .error e) : recordOk Raise.illegalCommand.code w = true := by
  rw [recordOk, decode_error_beat h 0]
  rfl

/-- A record of a legal word, from a fault its command may raise (60_exceptions.md R230, R237). -/
theorem recordOk_of_raisedBy {w : Word} {b : Nat} {i : Instr} {e : Raise} (h : decode w b = .ok i) (he : i.mnemonic ∈ e.raisedBy) :
    recordOk e.code w = true := by
  cases hd : decode w 0 with
  | error r => rw [decode_error_beat hd b] at h; cases h
  | ok j =>
    rw [mnemonic_of_decode h hd] at he
    rw [recordOk, hd]
    cases e <;> simp_all [Raise.raisedBy]

/-- What framing can answer. -/
theorem frame_cases (W : Nat) (us : List Nat) :
    (us = [] ∧ frame W us = .nothing)
      ∨ (frame W us = .misfit ∧ unitsFit W false us = false)
      ∨ (∃ u : Nat, us = [u] ∧ Word.hasBeat (wordOfUnit u) = true ∧ frame W us = .awaiting (wordOfUnit u))
      ∨ (∃ (u beat : Nat) (rest : List Nat), us = u :: (if Word.hasBeat (wordOfUnit u) then beat :: rest else rest) ∧ (u < 2 ^ 32 ∨ u < 2 ^ W)
          ∧ beat < 2 ^ W ∧ (Word.hasBeat (wordOfUnit u) = false → beat = 0) ∧ frame W us = .command (wordOfUnit u) beat rest) := by
  cases us with
  | nil => exact .inl ⟨rfl, rfl⟩
  | cons u rest =>
    right
    by_cases hu : u < 2 ^ 32 ∨ u < 2 ^ W
    · by_cases hb : Word.hasBeat (wordOfUnit u) = true
      · cases rest with
        | nil => exact .inr (.inl ⟨u, rfl, hb, by simp only [frame, if_pos hu, if_pos hb]⟩)
        | cons b rest' =>
          by_cases hlt : b < 2 ^ W
          · exact .inr (.inr ⟨u, b, rest', by rw [if_pos hb], hu, hlt, fun h => absurd hb (by simp [h]),
              by simp only [frame, if_pos hu, if_pos hb, if_pos hlt]⟩)
          · exact .inl ⟨by simp only [frame, if_pos hu, if_pos hb, if_neg hlt], by simp [unitsFit, hb, hlt]⟩
      · exact .inr (.inr ⟨u, 0, rest, by rw [if_neg hb], hu, by positivity, fun _ => rfl, by simp only [frame, if_pos hu, if_neg hb]⟩)
    · exact .inl ⟨by simp only [frame, if_neg hu], by rw [unitsFit, decide_eq_false hu]; rfl⟩

/-- The decoder on units, from their framing and the decoding of the word. -/
theorem decodeUnits_of_frame {W : Nat} {us rest : List Nat} {w : Word} {beat : Nat} {i : Instr}
    (hf : frame W us = .command w beat rest) (hd : decode w beat = .ok i) : decodeUnits W us = .ok (i, rest) := by
  simp only [decodeUnits, hf, hd]

/-- A step of an idle core on a whole command issues it. -/
theorem step_of_frame {s : State} {w : Word} {beat : Nat} {rest : List Nat} (hrx : s.rx = .idle)
    (hf : frame s.width s.units = .command w beat rest) : step s = issue w beat { s with units := rest } := by
  simp only [step, fetch, hrx, hf]

/-- A step of an idle core on the units of any word. -/
theorem step_of_units {s : State} {w : Word} {beat : Nat} {rest : List Nat} (hrx : s.rx = .idle)
    (hu : s.units = unitsOfWord w beat ++ rest) (hb : beat < 2 ^ s.width) :
    step s = issue w (if Word.hasBeat w then beat else 0) { s with units := rest } :=
  step_of_frame hrx (by rw [hu]; exact frame_unitsOfWord _ _ _ _ hb)

/-- A step of a core whose awaited beat has arrived. -/
theorem step_of_beat {s : State} {w : Word} {beat : Nat} {rest : List Nat} (hrx : s.rx = .awaitBeat w)
    (hu : s.units = beat :: rest) (hb : beat < 2 ^ s.width) : step s = issue w beat { s with rx := .idle, units := rest } := by
  simp only [step, fetch, hrx, hu, if_pos hb]

/-- A legal word that may run is executed. -/
theorem issue_of_ok {w : Word} {beat : Nat} {i : Instr} {s : State} (hd : decode w beat = .ok i)
    (hr : s.fault = false ∨ i.mnemonic.runsFaulted = true) : issue w beat s = exec i s := by
  rw [issue, hd]
  rcases hr with hr | hr <;> simp [hr]

/-- An illegal word with no fault pending commits IllegalCommand. -/
theorem issue_of_error {w : Word} {beat : Nat} {e : Reject} {s : State} (hd : decode w beat = .error e) (hf : s.fault = false) :
    issue w beat s = .next (s.commitFault .illegalCommand w) := by
  rw [issue, hd]
  simp [hf]

/-- While a fault is pending, a word that is not one of the three is discarded. -/
theorem issue_discards {w : Word} {beat : Nat} {s : State} (hf : s.fault = true)
    (hn : ∀ i, decode w beat = .ok i → i.mnemonic.runsFaulted = false) : issue w beat s = .next s := by
  rw [issue]
  cases hd : decode w beat with
  | error e => simp [hf]
  | ok i => simp [hf, hn i hd]

/-- What a step can be: a wait, a misfit unit, the taking of a lone LDR word, or the issue of one command. -/
theorem step_cases (s : State) :
    (s.rx = .idle ∧ s.units = [] ∧ step s = .fault .waitCommand)
      ∨ ((∃ w, s.rx = .awaitBeat w) ∧ s.units = [] ∧ step s = .fault .waitBeat)
      ∨ (s.channelOk = false ∧ step s = .fault .misfitUnit)
      ∨ (∃ u : Nat, s.rx = .idle ∧ s.units = [u] ∧ Word.hasBeat (wordOfUnit u) = true
          ∧ step s = .next { s with rx := .awaitBeat (wordOfUnit u), units := [] })
      ∨ (∃ (u beat : Nat) (rest : List Nat), s.rx = .idle
          ∧ s.units = u :: (if Word.hasBeat (wordOfUnit u) then beat :: rest else rest) ∧ (u < 2 ^ 32 ∨ u < 2 ^ s.width) ∧ beat < 2 ^ s.width
          ∧ step s = issue (wordOfUnit u) beat { s with units := rest })
      ∨ (∃ (w : Word) (beat : Nat) (rest : List Nat), s.rx = .awaitBeat w ∧ s.units = beat :: rest ∧ beat < 2 ^ s.width
          ∧ step s = issue w beat { s with rx := .idle, units := rest }) := by
  cases hrx : s.rx with
  | idle =>
    rcases frame_cases s.width s.units with ⟨hu, hf⟩ | ⟨hf, hfit⟩ | ⟨u, hu, hb, hf⟩ | ⟨u, beat, rest, hu, hfit, hlt, -, hf⟩
    · exact .inl ⟨rfl, hu, by simp [step, fetch, hrx, hf]⟩
    · exact .inr (.inr (.inl ⟨by simpa [State.channelOk, hrx] using hfit, by simp [step, fetch, hrx, hf]⟩))
    · exact .inr (.inr (.inr (.inl ⟨u, rfl, hu, hb, by simp [step, fetch, hrx, hf]⟩)))
    · exact .inr (.inr (.inr (.inr (.inl ⟨u, beat, rest, rfl, hu, hfit, hlt, by simp [step, fetch, hrx, hf]⟩))))
  | awaitBeat w =>
    cases hu : s.units with
    | nil => exact .inr (.inl ⟨⟨w, rfl⟩, rfl, by simp [step, fetch, hrx, hu]⟩)
    | cons b rest =>
      by_cases hlt : b < 2 ^ s.width
      · exact .inr (.inr (.inr (.inr (.inr ⟨w, b, rest, rfl, rfl, hlt, by simp [step, fetch, hrx, hu, hlt]⟩))))
      · have hne : (Receive.awaitBeat w != Receive.idle) = true := by simp
        exact .inr (.inr (.inl ⟨by rw [State.channelOk, hrx, hu, hne]; simp [unitsFit, hlt], by simp [step, fetch, hrx, hu, hlt]⟩))

/-- What issuing a command can be: discarded, IllegalCommand, or executed. -/
theorem issue_cases (w : Word) (beat : Nat) (s : State) :
    (s.fault = true ∧ (∀ i, decode w beat = .ok i → i.mnemonic.runsFaulted = false) ∧ issue w beat s = .next s)
      ∨ (∃ e, s.fault = false ∧ decode w beat = .error e ∧ issue w beat s = .next (s.commitFault .illegalCommand w))
      ∨ (∃ i, decode w beat = .ok i ∧ (s.fault = false ∨ i.mnemonic.runsFaulted = true) ∧ issue w beat s = exec i s) := by
  cases hd : decode w beat with
  | error e =>
    cases hf : s.fault with
    | true => exact .inl ⟨rfl, by simp, by simp [issue, hd, hf]⟩
    | false => exact .inr (.inl ⟨e, rfl, rfl, by simp [issue, hd, hf]⟩)
  | ok i =>
    cases hf : s.fault with
    | true =>
      cases hr : i.mnemonic.runsFaulted with
      | true => exact .inr (.inr ⟨i, rfl, .inr hr, by simp [issue, hd, hf, hr]⟩)
      | false => exact .inl ⟨rfl, by rintro j hj; cases hj; exact hr, by simp [issue, hd, hf, hr]⟩
    | false => exact .inr (.inr ⟨i, rfl, .inl rfl, by simp [issue, hd, hf]⟩)

/-- A run whose first step answers a next state goes on from it. -/
theorem run_of_next {s t : State} (k : Nat) (h : step s = .next t) :
    Host.Core.run Sys2Proof.core (k + 1) s = Host.Core.run Sys2Proof.core k t := by
  have h' : Sys2Proof.core.step s = .next t := h
  simp only [Host.Core.run, h']

/-- A run whose first step stops, stops so. -/
theorem run_of_fault {s : State} {f : Fault} (k : Nat) (h : step s = .fault f) :
    Host.Core.run Sys2Proof.core (k + 1) s = .fault f := by
  have h' : Sys2Proof.core.step s = .fault f := h
  simp only [Host.Core.run, h']

end Sys2Proof.Machine
end

