-- ==== Sys2Proof/Laws/Field.lean ====
section
/-! SUPPORT. What the arithmetic of Machine/Field.lean computes: remainders, the extended Euclidean algorithm, square-and-multiply. -/

namespace Sys2Proof.Machine

theorem modP_cast (a : Int) {n : Nat} (h : 0 < n) : (modP a n : Int) = a % n := by
  have : 0 ≤ a % (n : Int) := Int.emod_nonneg _ (by omega)
  simp [modP, Int.toNat_of_nonneg this]

theorem modP_lt (a : Int) {n : Nat} (h : 0 < n) : modP a n < n := by
  have h1 := modP_cast a h
  have : a % (n : Int) < n := Int.emod_lt_of_pos _ (by omega)
  omega

@[simp] theorem modP_natCast (a n : Nat) : modP (a : Int) n = a % n := by
  rw [modP, ← Int.natCast_emod, Int.toNat_natCast]

theorem modP_modEq (a : Int) {n : Nat} (h : 0 < n) : (modP a n : Int) ≡ a [ZMOD n] := by
  rw [modP_cast a h]; exact Int.mod_modEq a n

/-- Two integers have the same remainder exactly when they are congruent. -/
theorem modP_eq_iff {a b : Int} {n : Nat} (h : 0 < n) : modP a n = modP b n ↔ a ≡ b [ZMOD n] := by
  rw [← Nat.cast_inj (R := Int), modP_cast a h, modP_cast b h]; rfl

/-- The invariant of the extended Euclidean algorithm: each coefficient times `a` is congruent to its remainder, so the last coefficient
times `a` is congruent to the greatest common divisor. -/
theorem euclid_modEq (p : Nat) (a : Int) (steps r0 r1 : Nat) (t0 t1 : Int) (hs : r1 < steps) (h0 : t0 * a ≡ r0 [ZMOD p])
    (h1 : t1 * a ≡ r1 [ZMOD p]) : euclid steps r0 r1 t0 t1 * a ≡ (Nat.gcd r0 r1 : Nat) [ZMOD p] := by
  induction steps generalizing r0 r1 t0 t1 with
  | zero => omega
  | succ n ih =>
    unfold euclid
    split
    · rename_i hr; simpa [hr] using h0
    · rename_i hr
      have hlt : r0 % r1 < r1 := Nat.mod_lt _ (by omega)
      rw [Nat.gcd_comm, Nat.gcd_rec r1 r0, Nat.gcd_comm]
      refine ih r1 (r0 % r1) t1 _ (by omega) h1 ?_
      have hsplit : ((r0 % r1 : Nat) : Int) = (r0 : Int) - ((r0 / r1 : Nat) : Int) * r1 := by
        have := Nat.mod_add_div r0 r1
        have h2 : ((r0 % r1 : Nat) : Int) + (r1 : Int) * ((r0 / r1 : Nat) : Int) = r0 := by exact_mod_cast this
        linarith [mul_comm (r1 : Int) ((r0 / r1 : Nat) : Int)]
      rw [hsplit, sub_mul, mul_assoc]
      exact h0.sub (h1.mul_left _)

/-- Inverses modulo `p` are unique (00_scope.md R11). -/
theorem IsInverse.unique {p : Nat} {a : Int} {b b' : Nat} (h : IsInverse p a b) (h' : IsInverse p a b') : b' = b := by
  obtain ⟨h1, h2, h3⟩ := h
  obtain ⟨h1', h2', h3'⟩ := h'
  have hp : (1 : Int) % p = 1 := Int.emod_eq_of_lt (by omega) (by omega)
  have e : a * b ≡ 1 [ZMOD p] := by unfold Int.ModEq; rw [h3, hp]
  have e' : a * b' ≡ 1 [ZMOD p] := by unfold Int.ModEq; rw [h3', hp]
  have key : (b' : Int) ≡ b [ZMOD p] := by
    calc (b' : Int) = b' * 1 := by ring
      _ ≡ b' * (a * b) [ZMOD p] := (e.symm).mul_left _
      _ = b * (a * b') := by ring
      _ ≡ b * 1 [ZMOD p] := e'.mul_left _
      _ = b := by ring
  have := (Int.natCast_modEq_iff.mp key)
  rw [Nat.ModEq, Nat.mod_eq_of_lt h2, Nat.mod_eq_of_lt h2'] at this
  exact this

/-- `invP` gives the inverse where there is one (00_scope.md R11; 40_field_arithmetic.md R104). -/
theorem invP_of_coprime {p : Nat} {a : Int} (hp : 1 < p) (h : Nat.gcd (modP a p) p = 1) :
    ∃ b, invP p a = .ok b ∧ IsInverse p a b := by
  refine ⟨_, by rw [invP, if_pos h], ?_⟩
  set t := euclid (modP a p + 1) p (modP a p) 0 1 with ht
  have hmain : t * a ≡ 1 [ZMOD p] := by
    have h0 : (0 : Int) * a ≡ (p : Nat) [ZMOD p] := by
      rw [zero_mul]; exact (Int.modEq_zero_iff_dvd.mpr (dvd_refl _)).symm
    have h1 : (1 : Int) * a ≡ (modP a p : Nat) [ZMOD p] := by
      rw [one_mul]; exact (modP_modEq a (by omega)).symm
    have := euclid_modEq p a (modP a p + 1) p (modP a p) 0 1 (by omega) h0 h1
    rwa [Nat.gcd_comm, h] at this
  have hb : a * (modP t p : Nat) ≡ 1 [ZMOD p] := by
    calc a * (modP t p : Nat) ≡ a * t [ZMOD p] := (modP_modEq t (by omega)).mul_left _
      _ = t * a := by ring
      _ ≡ 1 [ZMOD p] := hmain
  have h1p : (1 : Int) % p = 1 := Int.emod_eq_of_lt (by omega) (by omega)
  refine ⟨?_, modP_lt t (by omega), ?_⟩
  · by_contra hcon
    have hz : modP t p = 0 := by omega
    rw [hz] at hb
    have h01 : (0 : Int) ≡ 1 [ZMOD p] := by simpa using hb
    rw [Int.ModEq, h1p] at h01
    simp at h01
  · rw [hb, h1p]

/-- `invP` raises NoInverse where there is none (00_scope.md R11). -/
theorem invP_of_not_coprime {p : Nat} {a : Int} (h : Nat.gcd (modP a p) p ≠ 1) : invP p a = .error .noInverse := by
  rw [invP, if_neg h]

/-- Everything `invP` can do, for a modulus above 1. -/
theorem invP_cases {p : Nat} (a : Int) (hp : 1 < p) :
    (∃ b, invP p a = .ok b ∧ IsInverse p a b ∧ Nat.gcd (modP a p) p = 1)
      ∨ (invP p a = .error .noInverse ∧ Nat.gcd (modP a p) p ≠ 1) := by
  by_cases h : Nat.gcd (modP a p) p = 1
  · obtain ⟨b, hb, hi⟩ := invP_of_coprime hp h
    exact .inl ⟨b, hb, hi, h⟩
  · exact .inr ⟨invP_of_not_coprime h, h⟩

/-- `invP` raises nothing but NoInverse. -/
theorem invP_error {p : Nat} {a : Int} {e : Raise} (h : invP p a = .error e) : e = .noInverse := by
  unfold invP at h
  split at h
  · cases h
  · cases h; rfl

/-- The loop invariant of square-and-multiply: `r·b^e` is kept modulo `p` (40_field_arithmetic.md R105). -/
theorem powLoop_modEq (p steps e b r : Nat) (hs : e ≤ steps) : powLoop p steps e b r ≡ r * b ^ e [MOD p] := by
  induction steps generalizing e b r with
  | zero =>
    have : e = 0 := by omega
    subst this
    simp [powLoop, Nat.ModEq]
  | succ n ih =>
    unfold powLoop
    split
    · rename_i he; simp [he, Nat.ModEq]
    · rename_i he
      rw [Nat.shiftRight_one]
      refine (ih _ _ _ (by omega)).trans ?_
      have hsq : ((b * b) % p) ^ (e / 2) ≡ b ^ (2 * (e / 2)) [MOD p] := by
        rw [pow_mul, pow_two]; exact (Nat.mod_modEq _ _).pow _
      rcases Nat.mod_two_eq_zero_or_one e with h2 | h2
      · rw [if_neg (by omega)]
        refine (hsq.mul_left r).trans ?_
        rw [show 2 * (e / 2) = e by omega]
      · rw [if_pos h2]
        refine ((Nat.mod_modEq (r * b) p).mul hsq).trans ?_
        rw [mul_assoc, ← pow_succ', show 2 * (e / 2) + 1 = e by omega]

/-- `powMod` is the power modulo `p` (40_field_arithmetic.md R105). -/
theorem powMod_eq (p b e : Nat) : powMod p b e = b ^ e % p := by
  have := powLoop_modEq p e e b 1 (le_refl e)
  rw [one_mul] at this
  exact this

end Sys2Proof.Machine
end

