-- ==== Sys2Proof/Laws/Curve.lean ====
section
/-! SUPPORT. What the shared curve functions of Machine/Curve.lean compute: canonical points, membership, the group law, the loops'
bounds, curve construction. -/

namespace Sys2Proof.Machine

/-- A point value with both coordinates below `p` (00_scope.md R14). -/
def Point.reduced (p : Nat) : Point → Prop
  | .inf => True
  | .aff x y => x < p ∧ y < p

theorem Point.reduced_canon {p : Nat} (hp : 0 < p) (v : Point) : (v.canon p).reduced p := by
  cases v with
  | inf => trivial
  | aff x y => exact ⟨Nat.mod_lt _ hp, Nat.mod_lt _ hp⟩

theorem Point.canon_of_reduced {p : Nat} {v : Point} (h : v.reduced p) : v.canon p = v := by
  cases v with
  | inf => rfl
  | aff x y => rw [Point.canon, Nat.mod_eq_of_lt h.1, Nat.mod_eq_of_lt h.2]

/-- Membership is the curve equation (42_point_ops.md R140). -/
theorem onCurve_iff {c : Curve} (hp : 0 < c.p) (v : Point) : onCurve c v = true ↔ IsOnCurve c v := by
  cases v with
  | inf => simp [onCurve, IsOnCurve]
  | aff x y =>
    simp only [onCurve, IsOnCurve, beq_iff_eq]
    rw [← Nat.cast_inj (R := Int), modP_cast _ hp, Nat.cast_zero, ← Int.dvd_iff_emod_eq_zero]

theorem onCurve_eq_false_iff {c : Curve} (hp : 0 < c.p) (v : Point) : onCurve c v = false ↔ ¬ IsOnCurve c v := by
  rw [← onCurve_iff hp, Bool.not_eq_true]

/-- A point that satisfies the equation passes the test, whatever the modulus. -/
theorem onCurve_of_isOnCurve {c : Curve} {v : Point} (h : IsOnCurve c v) : onCurve c v = true := by
  cases v with
  | inf => rfl
  | aff x y =>
    simp only [onCurve, beq_iff_eq, modP]
    rw [Int.emod_eq_zero_of_dvd h, Int.toNat_zero]

/-- The point from a slope is the one the rule's last lines name (42_point_ops.md R142). -/
theorem chord_isChord {p : Nat} (hp : 0 < p) (m x1 y1 x2 : Nat) : IsChord p m x1 y1 x2 (chord p m x1 y1 x2).toReg :=
  ⟨rfl, modP_cast _ hp, modP_cast _ hp⟩

theorem chord_reduced {p : Nat} (hp : 0 < p) (m x1 y1 x2 : Nat) : (chord p m x1 y1 x2).reduced p :=
  ⟨modP_lt _ hp, modP_lt _ hp⟩

@[simp] theorem ecadd_inf_left (c : Curve) (q : Point) : ecadd c .inf q = .ok q := by cases q <;> rfl
@[simp] theorem ecadd_inf_right (c : Curve) (q : Point) : ecadd c q .inf = .ok q := by cases q <;> rfl

/-- Everything the group law can do on two affine points (42_point_ops.md R142, R148). -/
theorem ecadd_cases (c : Curve) (hp : 1 < c.p) (x1 y1 x2 y2 : Nat) :
    (x1 = x2 ∧ (y1 + y2) % c.p = 0 ∧ ecadd c (.aff x1 y1) (.aff x2 y2) = .ok .inf)
      ∨ (¬ (x1 = x2 ∧ (y1 + y2) % c.p = 0) ∧ x1 = x2 ∧ y1 = y2
          ∧ ((∃ iv, IsInverse c.p (2 * (y1 : Int)) iv ∧ Nat.gcd (modP (2 * (y1 : Int)) c.p) c.p = 1
                ∧ ecadd c (.aff x1 y1) (.aff x2 y2) =
                  .ok (chord c.p (modP ((3 * (x1 : Int) * x1 + c.a) * iv) c.p) x1 y1 x2))
            ∨ (Nat.gcd (modP (2 * (y1 : Int)) c.p) c.p ≠ 1 ∧ ecadd c (.aff x1 y1) (.aff x2 y2) = .error .noInverse)))
      ∨ (¬ (x1 = x2 ∧ (y1 + y2) % c.p = 0) ∧ ¬ (x1 = x2 ∧ y1 = y2)
          ∧ ((∃ iv, IsInverse c.p ((x2 : Int) - x1) iv ∧ Nat.gcd (modP ((x2 : Int) - x1) c.p) c.p = 1
                ∧ ecadd c (.aff x1 y1) (.aff x2 y2) =
                  .ok (chord c.p (modP (((y2 : Int) - y1) * iv) c.p) x1 y1 x2))
            ∨ (Nat.gcd (modP ((x2 : Int) - x1) c.p) c.p ≠ 1 ∧ ecadd c (.aff x1 y1) (.aff x2 y2) = .error .noInverse))) := by
  by_cases h1 : x1 = x2 ∧ (y1 + y2) % c.p = 0
  · exact .inl ⟨h1.1, h1.2, by simp [ecadd, h1]⟩
  by_cases h2 : x1 = x2 ∧ y1 = y2
  · refine .inr (.inl ⟨h1, h2.1, h2.2, ?_⟩)
    rcases invP_cases (2 * (y1 : Int)) hp with ⟨iv, hiv, hinv, hg⟩ | ⟨hiv, hg⟩
    · exact .inl ⟨iv, hinv, hg, by simp only [ecadd]; rw [if_neg h1, if_pos h2, hiv]⟩
    · exact .inr ⟨hg, by simp only [ecadd]; rw [if_neg h1, if_pos h2, hiv]⟩
  · refine .inr (.inr ⟨h1, h2, ?_⟩)
    rcases invP_cases ((x2 : Int) - x1) hp with ⟨iv, hiv, hinv, hg⟩ | ⟨hiv, hg⟩
    · exact .inl ⟨iv, hinv, hg, by simp only [ecadd]; rw [if_neg h1, if_neg h2, hiv]⟩
    · exact .inr ⟨hg, by simp only [ecadd]; rw [if_neg h1, if_neg h2, hiv]⟩

/-- The group law raises nothing but NoInverse. -/
theorem ecadd_error {c : Curve} {P Q : Point} {e : Raise} (h : ecadd c P Q = .error e) : e = .noInverse := by
  cases P with
  | inf => simp at h
  | aff x1 y1 =>
    cases Q with
    | inf => simp at h
    | aff x2 y2 =>
      simp only [ecadd] at h
      split at h
      · cases h
      · split at h
        · split at h
          · rename_i hi; cases h; exact invP_error hi
          · cases h
        · split at h
          · rename_i hi; cases h; exact invP_error hi
          · cases h

/-- The group law keeps points reduced (42_point_ops.md R142: "returns a canonical point value"). -/
theorem ecadd_reduced {c : Curve} (hp : 0 < c.p) {P Q V : Point} (hP : P.reduced c.p) (hQ : Q.reduced c.p) (h : ecadd c P Q = .ok V) :
    V.reduced c.p := by
  cases P with
  | inf => simp at h; exact h ▸ hQ
  | aff x1 y1 =>
    cases Q with
    | inf => simp at h; exact h ▸ hP
    | aff x2 y2 =>
      simp only [ecadd] at h
      split at h
      · cases h; trivial
      · split at h
        · split at h
          · cases h
          · cases h; exact chord_reduced hp _ _ _ _
        · split at h
          · cases h
          · cases h; exact chord_reduced hp _ _ _ _

/-- The double-and-add loop has enough steps when it has `k` of them, and more make no difference (log 15). -/
theorem smulLoop_steps (c : Curve) (n m k : Nat) (a r : Point) (hn : k ≤ n) (hm : k ≤ m) :
    smulLoop c n k a r = smulLoop c m k a r := by
  induction n generalizing m k a r with
  | zero =>
    have hk : k = 0 := by omega
    subst hk
    cases m <;> simp [smulLoop]
  | succ n ih =>
    cases m with
    | zero =>
      have hk : k = 0 := by omega
      subst hk
      simp [smulLoop]
    | succ m =>
      by_cases hk : k = 0
      · simp [smulLoop, hk]
      · simp only [smulLoop, hk, if_false]
        split
        · rfl
        · split
          · rfl
          · rw [Nat.shiftRight_one]
            exact ih _ _ _ _ (by omega) (by omega)

/-- The double-and-add loop raises nothing but NoInverse. -/
theorem smulLoop_error {c : Curve} {n k : Nat} {a r : Point} {e : Raise} (h : smulLoop c n k a r = .error e) : e = .noInverse := by
  induction n generalizing k a r with
  | zero => simp [smulLoop] at h
  | succ n ih =>
    simp only [smulLoop] at h
    split at h
    · cases h
    · split at h
      · rename_i ho; cases h
        split at ho
        · exact ecadd_error ho
        · cases ho
      · split at h
        · rename_i hd; cases h; exact ecadd_error hd
        · exact ih h

theorem smulLoop_reduced {c : Curve} (hp : 0 < c.p) {n k : Nat} {a r v : Point} (ha : a.reduced c.p) (hr : r.reduced c.p)
    (h : smulLoop c n k a r = .ok v) : v.reduced c.p := by
  induction n generalizing k a r with
  | zero => simp [smulLoop] at h; exact h ▸ hr
  | succ n ih =>
    simp only [smulLoop] at h
    split at h
    · cases h; exact hr
    · split at h
      · cases h
      · rename_i r' ho
        have hr' : r'.reduced c.p := by
          split at ho
          · exact ecadd_reduced hp ha hr ho
          · cases ho; exact hr
        split at h
        · cases h
        · rename_i a' hd
          exact ih (ecadd_reduced hp ha ha hd) hr' h

/-- What the order scan can answer: a count within its additions, NoInverse, or OrderOverflow. -/
theorem orderLoop_cases {c : Curve} {g : Point} {left n : Nat} {q : Point} {out : Except Raise Nat} (h : orderLoop c g left q n = out) :
    (∃ m, out = .ok m ∧ n ≤ m ∧ m ≤ n + left) ∨ out = .error .noInverse ∨ out = .error .orderOverflow := by
  induction left generalizing q n with
  | zero =>
    simp only [orderLoop] at h
    split at h
    · exact .inl ⟨n, h.symm, le_refl _, by omega⟩
    · exact .inr (.inr h.symm)
  | succ left ih =>
    simp only [orderLoop] at h
    split at h
    · exact .inl ⟨n, h.symm, le_refl _, by omega⟩
    · split at h
      · rename_i he; exact .inr (.inl (by rw [← h, ecadd_error he]))
      · rcases ih h with ⟨m, hm, h1, h2⟩ | hr
        · exact .inl ⟨m, hm, by omega, by omega⟩
        · exact .inr hr

/-- Everything CINIT's computation can do (41_curve_config.md R120 to R124). -/
theorem construct_cases (pv an ad bn bd : Nat) :
    (pv ≤ 3 ∧ construct pv an ad bn bd = .error .invalidModulus)
      ∨ (3 < pv ∧ (Nat.gcd (ad % pv) pv ≠ 1 ∨ Nat.gcd (bd % pv) pv ≠ 1) ∧ construct pv an ad bn bd = .error .noInverse)
      ∨ (3 < pv ∧ Nat.gcd (ad % pv) pv = 1 ∧ Nat.gcd (bd % pv) pv = 1
          ∧ ∃ iad ibd, IsInverse pv ad iad ∧ IsInverse pv bd ibd
            ∧ construct pv an ad bn bd = .ok { p := pv
                                               a := (an * iad * Nat.lcm ad bd ^ 4) % pv
                                               b := (bn * ibd * Nat.lcm ad bd ^ 6) % pv
                                               l := Nat.lcm ad bd % pv }) := by
  by_cases hp : pv ≤ 3
  · exact .inl ⟨hp, by simp [construct, hp]⟩
  right
  rcases invP_cases (p := pv) (ad : Int) (by omega) with ⟨iad, ha, hia, hga⟩ | ⟨ha, hga⟩
  · rw [modP_natCast] at hga
    rcases invP_cases (p := pv) (bd : Int) (by omega) with ⟨ibd, hb, hib, hgb⟩ | ⟨hb, hgb⟩
    · rw [modP_natCast] at hgb
      exact .inr ⟨by omega, hga, hgb, iad, ibd, hia, hib, by simp only [construct]; rw [if_neg hp, ha]; simp only; rw [hb]⟩
    · rw [modP_natCast] at hgb
      exact .inl ⟨by omega, .inr hgb, by simp only [construct]; rw [if_neg hp, ha]; simp only; rw [hb]⟩
  · rw [modP_natCast] at hga
    exact .inl ⟨by omega, .inl hga, by simp only [construct]; rw [if_neg hp, ha]⟩

end Sys2Proof.Machine
end

