-- ==== Sys2Proof/Laws/Exec.lean ====
section
/-! SUPPORT. What executing a command can do to the state: one inversion lemma, assembled from one for each kind of meaning. -/

namespace Sys2Proof.Machine

/-- A fault kind that a command may raise; an ill-formed term raises IllegalCommand (log 12). -/
def mayRaise (i : Instr) (W : Nat) (e : Raise) : Prop :=
  i.mnemonic ∈ e.raisedBy ∨ (e = .illegalCommand ∧ i.wellFormed W = false)

/-- The seven things a command that answers a next state can have done. -/
inductive Effect (i : Instr) (s : State) : State → Prop
  | raised (e : Raise) (h : mayRaise i s.width e) : Effect i s (s.commitFault e (encodeWord i))
  | wroteScalar (rd : RegIdx) (v : Nat) (h : i.scalarDest = some rd) : Effect i s (s.setReg rd v)
  | wrotePoint (pd : PtIdx) (q : PointReg) (h : i.pointDest = some pd) : Effect i s (s.setPtReg pd q)
  | sent (rs : RegIdx) (h : i = .str rs) (hr : s.ready = true) : Effect i s { s with sent := s.sent ++ [s.reg rs] }
  | wroteCtrl (csr : CsrNum) (rs : RegIdx) (h : i = .wrcsr csr rs) : Effect i s { s with dvchk := bit0 (s.reg rs) }
  | cleared (h : i = .clrf) : Effect i s s.clearFault
  | configured (base : RegIdx) (c : Curve) (h : i = .cinit base)
      (hc : construct (s.reg base) (s.reg (base + 1)) (s.reg (base + 2)) (s.reg (base + 3)) (s.reg (base + 4)) = .ok c) :
      Effect i s (s.setCurve c)

/-- A computing command has the effect its body answers, its fault, or NotConfigured. -/
theorem State.computing_effect {i : Instr} {s t : State} {body : State → Except Raise State}
    (h : s.computing (encodeWord i) body = .next t) (hcfg : i.mnemonic ∈ Raise.raisedBy .notConfigured)
    (hok : ∀ u, body s = .ok u → Effect i s u) (herr : ∀ e, body s = .error e → i.mnemonic ∈ e.raisedBy) : Effect i s t := by
  rcases State.computing_next h with ⟨-, rfl⟩ | ⟨-, hb | ⟨e, hb, rfl⟩⟩
  · exact .raised _ (.inl hcfg)
  · exact hok t hb
  · exact .raised e (.inl (herr e hb))

/-- A domain check before a body: the check's fault, or the body's answer. -/
theorem State.domainCheck_bind {α : Type} {s : State} {v : Point} {r out : Except Raise α} (h : (do s.domainCheck v; r) = out) :
    out = .error .domainViolation ∨ r = out := by
  rcases State.domainCheck_cases s v with ⟨hd, -⟩ | ⟨hd, -⟩
  · rw [hd] at h; exact .inr h
  · rw [hd] at h; exact .inl h.symm

/-- The domain check passes on an admitted operand (42_point_ops.md R147). -/
theorem State.domainCheck_of_admits {s : State} {i : PtIdx} (h : s.admits i) : s.domainCheck (s.canonPt i) = .ok () := by
  rcases State.domainCheck_cases s (s.canonPt i) with ⟨hd, -⟩ | ⟨-, hv, ho⟩
  · exact hd
  · rw [onCurve_of_isOnCurve (h hv)] at ho
    cases ho

/-- The domain check raises DomainViolation on an operand that is not admitted (42_point_ops.md R147). -/
theorem State.domainCheck_of_not_admits {s : State} {i : PtIdx} (hp : 0 < s.cp) (h : ¬ s.admits i) :
    s.domainCheck (s.canonPt i) = .error .domainViolation := by
  rcases State.domainCheck_cases s (s.canonPt i) with ⟨-, ho⟩ | ⟨hd, -⟩
  · exact absurd (fun hv => (onCurve_iff (c := s.curve) hp _).mp (ho hv)) h
  · exact hd

theorem execPadd_effect {pd a b : PtIdx} {s t : State} (h : execPadd pd a b s = .next t) : Effect (.padd pd a b) s t := by
  refine State.computing_effect (i := .padd pd a b) h (by simp [Instr.mnemonic, Raise.raisedBy]) (fun u hu => ?_) (fun e he => ?_)
  · rcases State.domainCheck_bind hu with hc | hu
    · cases hc
    rcases State.domainCheck_bind hu with hc | hu
    · cases hc
    cases hv : ecadd s.curve (s.canonPt a) (s.canonPt b) with
    | error e => rw [hv] at hu; cases hu
    | ok v => rw [hv] at hu; cases hu; exact .wrotePoint pd v.toReg rfl
  · rcases State.domainCheck_bind he with hc | he
    · cases hc; simp [Instr.mnemonic, Raise.raisedBy]
    rcases State.domainCheck_bind he with hc | he
    · cases hc; simp [Instr.mnemonic, Raise.raisedBy]
    cases hv : ecadd s.curve (s.canonPt a) (s.canonPt b) with
    | error e' => rw [hv] at he; cases he; rw [ecadd_error hv]; simp [Instr.mnemonic, Raise.raisedBy]
    | ok v => rw [hv] at he; cases he

theorem execPdbl_effect {pd ps : PtIdx} {s t : State} (h : execPdbl pd ps s = .next t) : Effect (.pdbl pd ps) s t := by
  refine State.computing_effect (i := .pdbl pd ps) h (by simp [Instr.mnemonic, Raise.raisedBy]) (fun u hu => ?_) (fun e he => ?_)
  · rcases State.domainCheck_bind hu with hc | hu
    · cases hc
    cases hv : ecadd s.curve (s.canonPt ps) (s.canonPt ps) with
    | error e => rw [hv] at hu; cases hu
    | ok v => rw [hv] at hu; cases hu; exact .wrotePoint pd v.toReg rfl
  · rcases State.domainCheck_bind he with hc | he
    · cases hc; simp [Instr.mnemonic, Raise.raisedBy]
    cases hv : ecadd s.curve (s.canonPt ps) (s.canonPt ps) with
    | error e' => rw [hv] at he; cases he; rw [ecadd_error hv]; simp [Instr.mnemonic, Raise.raisedBy]
    | ok v => rw [hv] at he; cases he

theorem execSmul_effect {pd : PtIdx} {rk : RegIdx} {ps : PtIdx} {s t : State} (h : execSmul pd rk ps s = .next t) :
    Effect (.smul pd rk ps) s t := by
  refine State.computing_effect (i := .smul pd rk ps) h (by simp [Instr.mnemonic, Raise.raisedBy]) (fun u hu => ?_) (fun e he => ?_)
  · rcases State.domainCheck_bind hu with hc | hu
    · cases hc
    cases hv : smulLoop s.curve (s.reg rk) (s.reg rk) (s.canonPt ps) .inf with
    | error e => rw [hv] at hu; cases hu
    | ok v => rw [hv] at hu; cases hu; exact .wrotePoint pd v.toReg rfl
  · rcases State.domainCheck_bind he with hc | he
    · cases hc; simp [Instr.mnemonic, Raise.raisedBy]
    cases hv : smulLoop s.curve (s.reg rk) (s.reg rk) (s.canonPt ps) .inf with
    | error e' => rw [hv] at he; cases he; rw [smulLoop_error hv]; simp [Instr.mnemonic, Raise.raisedBy]
    | ok v => rw [hv] at he; cases he

theorem execPord_effect {rd : RegIdx} {ps : PtIdx} {s t : State} (h : execPord rd ps s = .next t) : Effect (.pord rd ps) s t := by
  refine State.computing_effect (i := .pord rd ps) h (by simp [Instr.mnemonic, Raise.raisedBy]) (fun u hu => ?_) (fun e he => ?_)
  · rcases State.domainCheck_bind hu with hc | hu
    · cases hc
    cases hv : orderScan s.curve s.width (s.canonPt ps) with
    | error e => rw [hv] at hu; cases hu
    | ok v => rw [hv] at hu; cases hu; exact .wroteScalar rd v rfl
  · rcases State.domainCheck_bind he with hc | he
    · cases hc; simp [Instr.mnemonic, Raise.raisedBy]
    cases hv : orderScan s.curve s.width (s.canonPt ps) with
    | error e' =>
      rw [hv] at he; cases he
      rcases orderLoop_cases hv with ⟨m, hm, -⟩ | hm | hm
      · cases hm
      · cases hm; simp [Instr.mnemonic, Raise.raisedBy]
      · cases hm; simp [Instr.mnemonic, Raise.raisedBy]
    | ok v => rw [hv] at he; cases he

theorem execMinv_effect {rd rs1 : RegIdx} {s t : State} (h : execMinv rd rs1 s = .next t) : Effect (.minv rd rs1) s t := by
  refine State.computing_effect (i := .minv rd rs1) h (by simp [Instr.mnemonic, Raise.raisedBy]) (fun u hu => ?_) (fun e he => ?_)
  · cases hv : invP s.cp (s.reg rs1) with
    | error e => rw [hv] at hu; cases hu
    | ok v => rw [hv] at hu; cases hu; exact .wroteScalar rd v rfl
  · cases hv : invP s.cp (s.reg rs1) with
    | error e' => rw [hv] at he; cases he; rw [invP_error hv]; simp [Instr.mnemonic, Raise.raisedBy]
    | ok v => rw [hv] at he; cases he

/-- DECF's computation raises nothing but NoInverse. -/
theorem fromFractional_error {c : Curve} {v : Point} {e : Raise} (h : fromFractional c v = .error e) : e = .noInverse := by
  cases v with
  | inf => cases h
  | aff x y =>
    simp only [fromFractional] at h
    split at h
    · rename_i hi; cases h; exact invP_error hi
    · cases h

theorem execDecf_effect {pd ps : PtIdx} {s t : State} (h : execDecf pd ps s = .next t) : Effect (.decf pd ps) s t := by
  refine State.computing_effect (i := .decf pd ps) h (by simp [Instr.mnemonic, Raise.raisedBy]) (fun u hu => ?_) (fun e he => ?_)
  · cases hv : fromFractional s.curve (s.canonPt ps) with
    | error e => rw [hv] at hu; cases hu
    | ok v => rw [hv] at hu; cases hu; exact .wrotePoint pd v.toReg rfl
  · cases hv : fromFractional s.curve (s.canonPt ps) with
    | error e' => rw [hv] at he; cases he; rw [fromFractional_error hv]; simp [Instr.mnemonic, Raise.raisedBy]
    | ok v => rw [hv] at he; cases he

theorem execCinit_effect {base : RegIdx} {s t : State} (h : execCinit base s = .next t) : Effect (.cinit base) s t := by
  rcases State.conclude_next h with hu | ⟨e, he, rfl⟩
  · split at hu
    · cases hu
    · cases hc : construct (s.reg base) (s.reg (base + 1)) (s.reg (base + 2)) (s.reg (base + 3)) (s.reg (base + 4)) with
      | error e => rw [hc] at hu; cases hu
      | ok c => rw [hc] at hu; cases hu; exact .configured base c rfl hc
  · refine .raised e ?_
    split at he
    · rename_i hb
      cases he
      exact .inr ⟨rfl, by simpa [Instr.wellFormed] using hb⟩
    · rcases construct_cases (s.reg base) (s.reg (base + 1)) (s.reg (base + 2)) (s.reg (base + 3)) (s.reg (base + 4)) with
        ⟨-, hc⟩ | ⟨-, -, hc⟩ | ⟨-, -, -, iad, ibd, -, -, hc⟩
      · rw [hc] at he; cases he; exact .inl (by simp [Instr.mnemonic, Raise.raisedBy])
      · rw [hc] at he; cases he; exact .inl (by simp [Instr.mnemonic, Raise.raisedBy])
      · rw [hc] at he; cases he

/-- A CSR number that does not exist is one no well-formed RDCSR names (10_state.md R24). -/
theorem State.csr_none {s : State} {n : CsrNum} (h : s.csr n = none) : ¬ n.val ≤ Config.lastCsr := by
  intro hn
  rcases n with ⟨n, hlt⟩
  simp only [Config.lastCsr] at hn
  interval_cases n <;> simp [State.csr] at h

theorem execRdcsr_effect {rd : RegIdx} {csr : CsrNum} {s t : State} (h : execRdcsr rd csr s = .next t) :
    Effect (.rdcsr rd csr) s t := by
  rcases State.conclude_next h with hu | ⟨e, he, rfl⟩
  · split at hu
    · cases hu; exact .wroteScalar rd _ rfl
    · cases hu
  · split at he
    · cases he
    · rename_i hn
      cases he
      exact .raised _ (.inr ⟨rfl, by simpa [Instr.wellFormed] using State.csr_none hn⟩)

theorem execWrcsr_effect {csr : CsrNum} {rs : RegIdx} {s t : State} (h : execWrcsr csr rs s = .next t) :
    Effect (.wrcsr csr rs) s t := by
  rcases State.conclude_next h with hu | ⟨e, he, rfl⟩
  · split at hu
    · cases hu; exact .wroteCtrl csr rs rfl
    · cases hu
  · split at he
    · cases he
    · rename_i hn
      cases he
      exact .raised _ (.inr ⟨rfl, by simpa [Instr.wellFormed] using hn⟩)

/-- A computing command whose body only writes a scalar register. -/
theorem State.computing_scalar {i : Instr} {s t : State} {rd : RegIdx} {v : State → Nat}
    (h : s.computing (encodeWord i) (fun s => .ok (s.setReg rd (v s))) = .next t) (hcfg : i.mnemonic ∈ Raise.raisedBy .notConfigured)
    (hd : i.scalarDest = some rd) : Effect i s t :=
  State.computing_effect h hcfg (fun u hu => by cases hu; exact .wroteScalar rd _ hd) (fun e he => by cases he)

/-- A computing command whose body only writes a point register. -/
theorem State.computing_point {i : Instr} {s t : State} {pd : PtIdx} {v : State → Point}
    (h : s.computing (encodeWord i) (fun s => .ok (s.setPt pd (v s))) = .next t) (hcfg : i.mnemonic ∈ Raise.raisedBy .notConfigured)
    (hd : i.pointDest = some pd) : Effect i s t :=
  State.computing_effect h hcfg (fun u hu => by cases hu; exact .wrotePoint pd _ hd) (fun e he => by cases he)

/-- Everything executing a command can do, when it answers a next state. -/
theorem exec_effect {i : Instr} {s t : State} (h : exec i s = .next t) : Effect i s t := by
  cases i with
  | ldr rd beat => cases h; exact .wroteScalar rd beat rfl
  | str rs => obtain ⟨hr, rfl⟩ := State.sendBeat_next h; exact .sent rs rfl hr
  | movr rd rs => cases h; exact .wroteScalar rd _ rfl
  | rdcsr rd csr => exact execRdcsr_effect h
  | wrcsr csr rs => exact execWrcsr_effect h
  | clrf => cases h; exact .cleared rfl
  | cinit base => exact execCinit_effect h
  | madd rd rs1 rs2 =>
    simp only [exec, execMadd] at h
    exact State.computing_scalar h (by simp [Instr.mnemonic, Raise.raisedBy]) rfl
  | msub rd rs1 rs2 =>
    simp only [exec, execMsub] at h
    exact State.computing_scalar h (by simp [Instr.mnemonic, Raise.raisedBy]) rfl
  | mmul rd rs1 rs2 =>
    simp only [exec, execMmul] at h
    exact State.computing_scalar h (by simp [Instr.mnemonic, Raise.raisedBy]) rfl
  | minv rd rs1 => exact execMinv_effect h
  | mexp rd base exp =>
    simp only [exec, execMexp] at h
    exact State.computing_scalar h (by simp [Instr.mnemonic, Raise.raisedBy]) rfl
  | mkp pd rx ry => cases h; exact .wrotePoint pd _ rfl
  | mkinf pd => cases h; exact .wrotePoint pd _ rfl
  | movp pd ps => cases h; exact .wrotePoint pd _ rfl
  | pgx rd ps => cases h; exact .wroteScalar rd _ rfl
  | pgy rd ps => cases h; exact .wroteScalar rd _ rfl
  | ptinf rd ps => cases h; exact .wroteScalar rd _ rfl
  | pchk rd ps =>
    simp only [exec, execPchk] at h
    exact State.computing_scalar h (by simp [Instr.mnemonic, Raise.raisedBy]) rfl
  | pneg pd ps =>
    simp only [exec, execPneg] at h
    exact State.computing_point h (by simp [Instr.mnemonic, Raise.raisedBy]) rfl
  | padd pd ps1 ps2 => exact execPadd_effect h
  | pdbl pd ps => exact execPdbl_effect h
  | smul pd rk ps => exact execSmul_effect h
  | pord rd ps => exact execPord_effect h
  | encf pd ps =>
    simp only [exec, execEncf] at h
    exact State.computing_point h (by simp [Instr.mnemonic, Raise.raisedBy]) rfl
  | decf pd ps => exact execDecf_effect h

end Sys2Proof.Machine
end

