-- ==== Sys2Proof/Laws/PerInstr.lean ====
section
/-! SUPPORT. The per-instruction family `EncodedFields`: the word of each command carries the opcode of its row and its operands in their
fields, and nothing in the reserved bits (30_encoding.md R71 to R75). -/

namespace Sys2Proof.Laws.EncodedFields

/-- The encoded word of `i` reads back field by field, and an unused field is 0. -/
def Statement (i : Instr) : Prop :=
  Word.op (encodeWord i) = i.mnemonic.opcode ∧ Word.f1 (encodeWord i) = i.f1 ∧ Word.f2 (encodeWord i) = i.f2
    ∧ Word.f3 (encodeWord i) = i.f3 ∧ Word.res (encodeWord i) = 0
    ∧ (i.mnemonic.usesF1 = false → i.f1 = 0) ∧ (i.mnemonic.usesF2 = false → i.f2 = 0) ∧ (i.mnemonic.usesF3 = false → i.f3 = 0)

/-- The five fields of any command's word. -/
theorem fields (i : Instr) :
    Word.op (encodeWord i) = i.mnemonic.opcode ∧ Word.f1 (encodeWord i) = i.f1 ∧ Word.f2 (encodeWord i) = i.f2
      ∧ Word.f3 (encodeWord i) = i.f3 ∧ Word.res (encodeWord i) = 0 :=
  have h := i.mnemonic.opcode_lt
  ⟨Word.op_pack h _ _ _, Word.f1_pack h _ _ _, Word.f2_pack h _ _ _, Word.f3_pack h _ _ _, Word.res_pack h _ _ _⟩

/-- A statement from the three facts about unused fields. -/
theorem intro {i : Instr} (h1 : i.mnemonic.usesF1 = false → i.f1 = 0) (h2 : i.mnemonic.usesF2 = false → i.f2 = 0)
    (h3 : i.mnemonic.usesF3 = false → i.f3 = 0) : Statement i :=
  have h := fields i
  ⟨h.1, h.2.1, h.2.2.1, h.2.2.2.1, h.2.2.2.2, h1, h2, h3⟩

theorem ldr (rd : RegIdx) (beat : Nat) : Statement (Instr.ldr rd beat) := intro nofun (fun _ => rfl) (fun _ => rfl)
theorem str (rs : RegIdx) : Statement (Instr.str rs) := intro (fun _ => rfl) nofun (fun _ => rfl)
theorem movr (rd rs : RegIdx) : Statement (Instr.movr rd rs) := intro nofun nofun (fun _ => rfl)
theorem rdcsr (rd : RegIdx) (csr : CsrNum) : Statement (Instr.rdcsr rd csr) := intro nofun nofun (fun _ => rfl)
theorem wrcsr (csr : CsrNum) (rs : RegIdx) : Statement (Instr.wrcsr csr rs) := intro nofun nofun (fun _ => rfl)
theorem clrf : Statement (Instr.clrf) := intro (fun _ => rfl) (fun _ => rfl) (fun _ => rfl)
theorem cinit (base : RegIdx) : Statement (Instr.cinit base) := intro (fun _ => rfl) nofun (fun _ => rfl)
theorem madd (rd rs1 rs2 : RegIdx) : Statement (Instr.madd rd rs1 rs2) := intro nofun nofun nofun
theorem msub (rd rs1 rs2 : RegIdx) : Statement (Instr.msub rd rs1 rs2) := intro nofun nofun nofun
theorem mmul (rd rs1 rs2 : RegIdx) : Statement (Instr.mmul rd rs1 rs2) := intro nofun nofun nofun
theorem minv (rd rs1 : RegIdx) : Statement (Instr.minv rd rs1) := intro nofun nofun (fun _ => rfl)
theorem mexp (rd base exp : RegIdx) : Statement (Instr.mexp rd base exp) := intro nofun nofun nofun
theorem mkp (pd : PtIdx) (rx ry : RegIdx) : Statement (Instr.mkp pd rx ry) := intro nofun nofun nofun
theorem mkinf (pd : PtIdx) : Statement (Instr.mkinf pd) := intro nofun (fun _ => rfl) (fun _ => rfl)
theorem movp (pd ps : PtIdx) : Statement (Instr.movp pd ps) := intro nofun nofun (fun _ => rfl)
theorem pgx (rd : RegIdx) (ps : PtIdx) : Statement (Instr.pgx rd ps) := intro nofun nofun (fun _ => rfl)
theorem pgy (rd : RegIdx) (ps : PtIdx) : Statement (Instr.pgy rd ps) := intro nofun nofun (fun _ => rfl)
theorem ptinf (rd : RegIdx) (ps : PtIdx) : Statement (Instr.ptinf rd ps) := intro nofun nofun (fun _ => rfl)
theorem pchk (rd : RegIdx) (ps : PtIdx) : Statement (Instr.pchk rd ps) := intro nofun nofun (fun _ => rfl)
theorem pneg (pd ps : PtIdx) : Statement (Instr.pneg pd ps) := intro nofun nofun (fun _ => rfl)
theorem padd (pd ps1 ps2 : PtIdx) : Statement (Instr.padd pd ps1 ps2) := intro nofun nofun nofun
theorem pdbl (pd ps : PtIdx) : Statement (Instr.pdbl pd ps) := intro nofun nofun (fun _ => rfl)
theorem smul (pd : PtIdx) (rk : RegIdx) (ps : PtIdx) : Statement (Instr.smul pd rk ps) := intro nofun nofun nofun
theorem pord (rd : RegIdx) (ps : PtIdx) : Statement (Instr.pord rd ps) := intro nofun nofun (fun _ => rfl)
theorem encf (pd ps : PtIdx) : Statement (Instr.encf pd ps) := intro nofun nofun (fun _ => rfl)
theorem decf (pd ps : PtIdx) : Statement (Instr.decf pd ps) := intro nofun nofun (fun _ => rfl)

end Sys2Proof.Laws.EncodedFields
end

