-- ==== Sys2Proof/Machine/Assembler.lean ====
section
/-! DEFINITION. The assembler's notation of a command (30_encoding.md R90) and its pseudo-instructions (R91). Nothing in the core depends
on either. -/

namespace Sys2Proof

/-- `r0` to `r15`. -/
def RegIdx.text (i : RegIdx) : String := "r" ++ toString i.val

/-- `p0` to `p15`. -/
def PtIdx.text (i : PtIdx) : String := "p" ++ toString i.val

/-- The name of a CSR, or its number where it has none. -/
def CsrNum.text (n : CsrNum) : String :=
  match ["status", "ctrl", "fcmd", "cp", "ca", "cb", "cl", "id", "width"][n.val]? with
  | some name => name
  | none => toString n.val

/-- A command of one operand, of two and of three. -/
def text1 (m a : String) : String := m ++ " " ++ a
def text2 (m a b : String) : String := text1 m a ++ ", " ++ b
def text3 (m a b c : String) : String := text2 m a b ++ ", " ++ c

/-- The line that stands for a command, operands in the order of R90, a literal in decimal. -/
def Instr.text : Instr → String
  | .ldr rd beat => text2 "ldr" (RegIdx.text rd) (toString beat)
  | .str rs => text1 "str" (RegIdx.text rs)
  | .movr rd rs => text2 "movr" (RegIdx.text rd) (RegIdx.text rs)
  | .rdcsr rd csr => text2 "rdcsr" (RegIdx.text rd) (CsrNum.text csr)
  | .wrcsr csr rs => text2 "wrcsr" (CsrNum.text csr) (RegIdx.text rs)
  | .clrf => "clrf"
  | .cinit base => text1 "cinit" (RegIdx.text base)
  | .madd rd rs1 rs2 => text3 "madd" (RegIdx.text rd) (RegIdx.text rs1) (RegIdx.text rs2)
  | .msub rd rs1 rs2 => text3 "msub" (RegIdx.text rd) (RegIdx.text rs1) (RegIdx.text rs2)
  | .mmul rd rs1 rs2 => text3 "mmul" (RegIdx.text rd) (RegIdx.text rs1) (RegIdx.text rs2)
  | .minv rd rs1 => text2 "minv" (RegIdx.text rd) (RegIdx.text rs1)
  | .mexp rd base exp => text3 "mexp" (RegIdx.text rd) (RegIdx.text base) (RegIdx.text exp)
  | .mkp pd rx ry => text3 "mkp" (PtIdx.text pd) (RegIdx.text rx) (RegIdx.text ry)
  | .mkinf pd => text1 "mkinf" (PtIdx.text pd)
  | .movp pd ps => text2 "movp" (PtIdx.text pd) (PtIdx.text ps)
  | .pgx rd ps => text2 "pgx" (RegIdx.text rd) (PtIdx.text ps)
  | .pgy rd ps => text2 "pgy" (RegIdx.text rd) (PtIdx.text ps)
  | .ptinf rd ps => text2 "ptinf" (RegIdx.text rd) (PtIdx.text ps)
  | .pchk rd ps => text2 "pchk" (RegIdx.text rd) (PtIdx.text ps)
  | .pneg pd ps => text2 "pneg" (PtIdx.text pd) (PtIdx.text ps)
  | .padd pd ps1 ps2 => text3 "padd" (PtIdx.text pd) (PtIdx.text ps1) (PtIdx.text ps2)
  | .pdbl pd ps => text2 "pdbl" (PtIdx.text pd) (PtIdx.text ps)
  | .smul pd rk ps => text3 "smul" (PtIdx.text pd) (RegIdx.text rk) (PtIdx.text ps)
  | .pord rd ps => text2 "pord" (RegIdx.text rd) (PtIdx.text ps)
  | .encf pd ps => text2 "encf" (PtIdx.text pd) (PtIdx.text ps)
  | .decf pd ps => text2 "decf" (PtIdx.text pd) (PtIdx.text ps)

/-- The pseudo-instructions of R91, operands in its order. -/
inductive Pseudo
  | li (rd : RegIdx) (imm : Nat)
  | ldp (pd : PtIdx) (x y : Nat) (t1 t2 : RegIdx)
  | psub (pd ps1 ps2 pt : PtIdx)
  | mdiv (rd rs1 rs2 rt : RegIdx)
  | stp (ps : PtIdx) (rt : RegIdx)
  | chkfault (rt : RegIdx)
  deriving DecidableEq, Repr

/-- The commands a pseudo-instruction expands to, and nothing else (R91). -/
def Pseudo.expand : Pseudo → List Instr
  | .li rd imm => [.ldr rd imm]
  | .ldp pd x y t1 t2 => [.ldr t1 x, .ldr t2 y, .mkp pd t1 t2]
  | .psub pd ps1 ps2 pt => [.pneg pt ps2, .padd pd ps1 pt]
  | .mdiv rd rs1 rs2 rt => [.minv rt rs2, .mmul rd rs1 rt]
  | .stp ps rt => [.ptinf rt ps, .str rt, .pgx rt ps, .str rt, .pgy rt ps, .str rt]
  | .chkfault rt => [.rdcsr rt 0, .str rt]

end Sys2Proof
end

