-- ==== Sys2Proof/Tests/Slice0.lean ====
section
/-! SUPPORT. Small tests of one step each. The words are written out from 30_encoding.md R71 and R75, the expected values come from the
spec's own vectors (95_test_vectors.md; the id is cited) or from hand calculation by the cited rule. -/

namespace Sys2Proof.Tests

open Sys2Proof.Machine

/-! ## Well-formedness refuses each ill-formed term -/

theorem test_wf_wide_beat : (Instr.ldr 3 (2 ^ 256)).wellFormed 256 = false := by decide
theorem test_wf_absent_csr : (Instr.rdcsr 1 9).wellFormed 256 = false := by decide
theorem test_wf_read_only_csr : (Instr.wrcsr 3 2).wellFormed 256 = false := by decide
theorem test_wf_block_base : (Instr.cinit 12).wellFormed 256 = false := by decide
theorem test_wf_accepts : (Instr.cinit 11).wellFormed 256 = true ∧ (Instr.rdcsr 15 8).wellFormed 256 = true := by decide

/-! ## Decoding: op, f1, f2, f3, res written out -/

theorem test_decode_ldr : decode 0b000001_0011_0000_0000_00000000000000#32 42 = .ok (.ldr 3 42) := by decide
theorem test_decode_str : decode 0b000010_0000_0101_0000_00000000000000#32 0 = .ok (.str 5) := by decide
theorem test_decode_movr : decode 0b000011_0001_0010_0000_00000000000000#32 0 = .ok (.movr 1 2) := by decide
theorem test_decode_rdcsr : decode 0b000100_1111_1000_0000_00000000000000#32 0 = .ok (.rdcsr 15 8) := by decide
theorem test_decode_wrcsr : decode 0b000101_0001_0010_0000_00000000000000#32 0 = .ok (.wrcsr 1 2) := by decide
theorem test_decode_clrf : decode 0b000110_0000_0000_0000_00000000000000#32 0 = .ok .clrf := by decide
theorem test_decode_cinit : decode 0b001000_0000_1011_0000_00000000000000#32 0 = .ok (.cinit 11) := by decide
theorem test_decode_madd : decode 0b010000_0001_0010_0011_00000000000000#32 0 = .ok (.madd 1 2 3) := by decide
theorem test_decode_msub : decode 0b010001_0001_0010_0011_00000000000000#32 0 = .ok (.msub 1 2 3) := by decide
theorem test_decode_mmul : decode 0b010010_0001_0010_0011_00000000000000#32 0 = .ok (.mmul 1 2 3) := by decide
theorem test_decode_minv : decode 0b010011_0001_0010_0000_00000000000000#32 0 = .ok (.minv 1 2) := by decide
theorem test_decode_mexp : decode 0b010100_0001_0010_0011_00000000000000#32 0 = .ok (.mexp 1 2 3) := by decide
theorem test_decode_mkp : decode 0b011000_0001_0010_0011_00000000000000#32 0 = .ok (.mkp 1 2 3) := by decide
theorem test_decode_mkinf : decode 0b011001_0001_0000_0000_00000000000000#32 0 = .ok (.mkinf 1) := by decide
theorem test_decode_movp : decode 0b011010_0001_0010_0000_00000000000000#32 0 = .ok (.movp 1 2) := by decide
theorem test_decode_pgx : decode 0b011011_0001_0010_0000_00000000000000#32 0 = .ok (.pgx 1 2) := by decide
theorem test_decode_pgy : decode 0b011100_0001_0010_0000_00000000000000#32 0 = .ok (.pgy 1 2) := by decide
theorem test_decode_ptinf : decode 0b011101_0110_0001_0000_00000000000000#32 0 = .ok (.ptinf 6 1) := by decide
theorem test_decode_pchk : decode 0b100000_0001_0010_0000_00000000000000#32 0 = .ok (.pchk 1 2) := by decide
theorem test_decode_pneg : decode 0b100001_0001_0010_0000_00000000000000#32 0 = .ok (.pneg 1 2) := by decide
theorem test_decode_padd : decode 0b100010_0001_0010_0011_00000000000000#32 0 = .ok (.padd 1 2 3) := by decide
theorem test_decode_pdbl : decode 0b100011_0001_0010_0000_00000000000000#32 0 = .ok (.pdbl 1 2) := by decide
theorem test_decode_smul : decode 0b100100_0001_0010_0011_00000000000000#32 0 = .ok (.smul 1 2 3) := by decide
theorem test_decode_pord : decode 0b100101_0001_0010_0000_00000000000000#32 0 = .ok (.pord 1 2) := by decide
theorem test_decode_encf : decode 0b101000_0001_0010_0000_00000000000000#32 0 = .ok (.encf 1 2) := by decide
theorem test_decode_decf : decode 0b101001_0100_0011_0000_00000000000000#32 0 = .ok (.decf 4 3) := by decide

/-- V-ENC-1 to V-ENC-9: the ways a word can be illegal. -/
theorem test_decode_rejects :
    [0x00000000#32, 0x1C000000#32, 0x4048C001#32, 0x4C484000#32, 0x10640000#32, 0x14080000#32, 0x18400000#32, 0x20300000#32,
        0x04C40000#32].map (fun w => decode w 0)
      = [.error .unassignedOpcode, .error .unassignedOpcode, .error .reservedBits, .error .unusedField, .error .absentCsr,
          .error .readOnlyCsr, .error .unusedField, .error .blockBase, .error .unusedField] := by decide

/-- 30_encoding.md R90: `padd p1, p2, p3` assembles to `0x8848C000`; V-ENC-13. -/
theorem test_encode_words :
    encodeWord (.padd 1 2 3) = 0x8848C000#32 ∧ encodeWord (.rdcsr 15 8) = 0x13E00000#32 ∧ encodeWord (.decf 4 3) = 0xA50C0000#32 := by
  decide

/-- The units of `ldr r3, 0x2A` and what follows them (V-IF-1; R77). -/
theorem test_decode_units :
    decodeUnits 256 [0x04C00000, 0x2A, 0x18000000] = .ok (.ldr 3 42, [0x18000000]) ∧ decodeUnits 256 [0x04C00000] = .error .missingBeat
      ∧ decodeUnits 256 [] = .error .noUnit ∧ decodeUnits 256 [2 ^ 256] = .error .misfitUnit := by decide

/-- The table's numbering: an LDR row has no beat bits, so its beat is 0. -/
theorem test_decode_table_word :
    decodeTableWord 32 0x04C00000 = some (.ldr 3 0) ∧ decodeTableWord 32 0xA50C0000 = some (.decf 4 3) ∧ decodeTableWord 32 0 = none := by
  decide

/-- 30_encoding.md R90 and R91: the notation, and `mdiv` and `stp` expanded. -/
theorem test_assembler :
    (Instr.padd 1 2 3).text = "padd p1, p2, p3" ∧ (Instr.wrcsr 1 15).text = "wrcsr ctrl, r15" ∧ (Instr.ldr 3 42).text = "ldr r3, 42"
      ∧ (Pseudo.mdiv 1 2 3 4).expand.map Instr.text = ["minv r4, r3", "mmul r1, r2, r4"]
      ∧ (Pseudo.stp 2 7).expand.map encodeWord
        = [0x75C80000#32, 0x081C0000#32, 0x6DC80000#32, 0x081C0000#32, 0x71C80000#32, 0x081C0000#32] := by decide +kernel

/-! ## Small states -/

/-- A configured state: modulus, `A`, `B`, `l`, the first scalar registers and the first point registers. -/
def conf (p a b l : Nat) (rs : List Nat) (ps : List PointReg) : State :=
  { State.reset with
    cfg := true
    cp := p
    ca := a
    cb := b
    cl := l
    r := Vector.ofFn fun i : Fin 16 => rs.getD i.val 0
    p := Vector.ofFn fun i : Fin 16 => ps.getD i.val { inf := true, x := 0, y := 0 } }

/-- The spec's curve Ex17 (95_test_vectors.md). -/
def ex17 (rs : List Nat) (ps : List PointReg) : State := conf 17 2 2 1 rs ps

/-- The source's curve S8 (95_test_vectors.md). -/
def s8 (rs : List Nat) (ps : List PointReg) : State := conf 178987 118125 81575 15 rs ps

/-- The composite modulus Ex15 (95_test_vectors.md). -/
def ex15 (rs : List Nat) (ps : List PointReg) : State := conf 15 2 2 1 rs ps

def affReg (x y : Nat) : PointReg := { inf := false, x := x, y := y }
def infReg : PointReg := { inf := true, x := 0, y := 0 }

/-- What a test looks at in an outcome. -/
def see {α : Type} (f : State → α) : Host.Outcome State Fault Refusal → Option α
  | .next s => some (f s)
  | .fault _ => none
  | .refused _ => none

/-! ## Interface and transfer commands -/

theorem test_ldr_keeps_large_beat : see (fun s => s.reg 3) (exec (.ldr 3 (2 ^ 256 - 1)) (ex17 [] [])) = some (2 ^ 256 - 1) := by decide
theorem test_str_sends : see (fun s => s.sent) (exec (.str 5) (ex17 [17, 2, 1, 2, 1, 7] [])) = some [7] := by decide
theorem test_str_waits : see (fun s => s.sent) (exec (.str 5) { ex17 [] [] with ready := false }) = none := by decide
theorem test_movr : see (fun s => (s.reg 1, s.reg 2)) (exec (.movr 1 2) (ex17 [17, 2, 9] [])) = some (9, 9) := by decide
/-- V-IF-5. -/
theorem test_rdcsr_id : see (fun s => s.reg 1) (exec (.rdcsr 1 7) (ex17 [] [])) = some 1162036017 := by decide
/-- V-FLT-1: STATUS reads `0x43` with a pending NoInverse. -/
theorem test_rdcsr_status :
    see (fun s => s.reg 7) (exec (.rdcsr 7 0) { ex17 [] [] with fault := true, fcode := 4, fcmd := 0x4C480000#32 }) = some 0x43 := by
  decide
/-- V-IF-8 and V-IF-9: only bit 0 counts. -/
theorem test_wrcsr_bit0 :
    see (fun s => s.dvchk) (exec (.wrcsr 1 2) { ex17 [0, 0, 2] [] with dvchk := true }) = some false
      ∧ see (fun s => s.dvchk) (exec (.wrcsr 1 2) (ex17 [0, 0, 3] [])) = some true := by decide
theorem test_clrf :
    see (fun s => (s.fault, s.fcode, s.fcmd, s.cfg)) (exec .clrf { ex17 [] [] with fault := true, fcode := 4, fcmd := 0x4C480000#32 })
      = some (false, 0, 0, true) := by decide
/-- V-IF-10: stored raw. -/
theorem test_mkp_raw : see (fun s => s.pt 1) (exec (.mkp 1 2 3) (ex17 [17, 2, 22, 18] [])) = some (affReg 22 18) := by decide
theorem test_mkinf : see (fun s => s.pt 1) (exec (.mkinf 1) (ex17 [] [infReg, affReg 5 5])) = some infReg := by decide
theorem test_movp_raw : see (fun s => s.pt 1) (exec (.movp 1 2) (ex17 [] [infReg, infReg, affReg 22 18])) = some (affReg 22 18) := by
  decide
theorem test_pgx_raw : see (fun s => s.reg 4) (exec (.pgx 4 1) (ex17 [] [infReg, affReg 22 18])) = some 22 := by decide
theorem test_pgy_raw : see (fun s => s.reg 5) (exec (.pgy 5 1) (ex17 [] [infReg, affReg 22 18])) = some 18 := by decide
/-- R211: PTINF tells `INF` from `Aff(0, 0)`. -/
theorem test_ptinf :
    see (fun s => s.reg 6) (exec (.ptinf 6 0) State.reset) = some 1
      ∧ see (fun s => s.reg 6) (exec (.ptinf 6 1) (ex17 [] [infReg, affReg 0 0])) = some 0 := by decide

/-! ## Field arithmetic -/

/-- V-FLD-2 and V-FLD-3: operands are reduced first. -/
theorem test_madd :
    see (fun s => s.reg 1) (exec (.madd 1 2 3) (ex17 [0, 0, 100, 200] [])) = some 11
      ∧ see (fun s => s.reg 1) (exec (.madd 1 2 3) (ex17 [0, 9, 2 ^ 256 - 1, 2 ^ 256 - 1] [])) = some 0 := by decide
/-- V-FLD-4: never negative. -/
theorem test_msub_wraps : see (fun s => s.reg 1) (exec (.msub 1 2 3) (ex17 [0, 0, 3, 5] [])) = some 15 := by decide
/-- V-FLD-6. -/
theorem test_mmul : see (fun s => s.reg 1) (exec (.mmul 1 2 3) (ex17 [0, 0, 5, 7] [])) = some 1 := by decide
/-- V-FLD-13: Euclid, not Fermat. -/
theorem test_minv_composite : see (fun s => s.reg 1) (exec (.minv 1 2) (ex15 [0, 0, 7] [])) = some 13 := by decide
/-- V-FLD-12: NoInverse, destination unchanged. -/
theorem test_minv_faults :
    see (fun s => (s.reg 1, s.statusWord, s.fcmd)) (exec (.minv 1 2) (ex17 [0, 99, 17] [])) = some (99, 0x43#32, 0x4C480000#32) := by
  decide
/-- V-FLD-20. -/
theorem test_mexp_raw_exponent : see (fun s => s.reg 1) (exec (.mexp 1 2 3) (ex17 [0, 0, 2, 2 ^ 32 - 1] [])) = some 9 := by
  decide +kernel
/-- V-FLD-18: `0^0 = 1`. -/
theorem test_mexp_zero : see (fun s => s.reg 1) (exec (.mexp 1 2 3) (ex17 [0, 0, 17, 0] [])) = some 1 := by decide

/-! ## Curve construction -/

/-- V-CFG-1. -/
theorem test_cinit_s8 :
    see (fun s => (s.cp, s.ca, s.cb, s.cl, s.statusWord)) (exec (.cinit 0) { State.reset with r := (s8 [178987, 7, 3, 2, 5] []).r })
      = some (178987, 118125, 81575, 15, 1#32) := by decide
/-- V-CFG-17: the modulus check comes first, and the old configuration stays. -/
theorem test_cinit_keeps_old :
    see (fun s => (s.cp, s.ca, s.cb, s.cl, s.statusWord, s.fcmd)) (exec (.cinit 5) (ex17 [17, 2, 1, 2, 1, 2] []))
      = some (17, 2, 2, 1, 0x33#32, 0x20140000#32) := by decide

/-! ## Points -/

/-- V-PT-2 and V-PT-4. -/
theorem test_pchk :
    see (fun s => s.reg 1) (exec (.pchk 1 2) (ex17 [0, 9] [infReg, infReg, affReg 5 2])) = some 0
      ∧ see (fun s => s.reg 1) (exec (.pchk 1 2) (ex17 [] [infReg, infReg, affReg 22 18])) = some 1 := by decide
/-- V-PT-8 and V-PT-9. -/
theorem test_pneg :
    see (fun s => s.pt 1) (exec (.pneg 1 2) (ex17 [] [infReg, infReg, affReg 3 0])) = some (affReg 3 0)
      ∧ see (fun s => s.pt 1) (exec (.pneg 1 2) (ex17 [] [infReg, infReg, affReg 22 18])) = some (affReg 5 16) := by decide
/-- V-PT-18: unreduced operands. -/
theorem test_padd : see (fun s => s.pt 1) (exec (.padd 1 2 3) (ex17 [] [infReg, infReg, affReg 22 1, affReg 6 20])) = some (affReg 10 6) := by
  decide
/-- V-PT-15 and V-PT-16: equal x, and the domain check before it. -/
theorem test_padd_faults :
    see (fun s => (s.pt 1, s.statusWord, s.fcmd)) (exec (.padd 1 2 3) (ex17 [] [infReg, infReg, affReg 5 1, affReg 5 2]))
      = some (infReg, 0x43#32, 0x8848C000#32)
      ∧ see (fun s => s.statusWord) (exec (.padd 1 2 3) { ex17 [] [infReg, infReg, affReg 5 1, affReg 5 2] with dvchk := true })
      = some 0x63#32 := by decide
/-- V-PT-25: source and destination the same; V-PT-22. -/
theorem test_pdbl :
    see (fun s => s.pt 2) (exec (.pdbl 2 2) (ex17 [] [infReg, infReg, affReg 5 1])) = some (affReg 6 3)
      ∧ see (fun s => s.pt 1) (exec (.pdbl 1 2) (ex17 [] [infReg, affReg 1 1, affReg 3 0])) = some infReg := by decide

/-! ## Scalar multiplication and order -/

/-- V-SMUL-3: 256 iterations. -/
theorem test_smul_long : see (fun s => s.pt 1) (exec (.smul 1 2 3) (ex17 [0, 0, 2 ^ 256 - 1] [infReg, infReg, infReg, affReg 5 1])) = some (affReg 3 16) := by
  decide +kernel
/-- V-SMUL-7: the unused last doubling faults; V-SMUL-9: the domain check runs for `k = 0`. -/
theorem test_smul_faults :
    see (fun s => (s.pt 1, s.statusWord, s.fcmd)) (exec (.smul 1 2 3) (ex15 [0, 0, 1] [infReg, infReg, infReg, affReg 1 5]))
      = some (infReg, 0x43#32, 0x9048C000#32)
      ∧ see (fun s => s.statusWord) (exec (.smul 1 2 3) { ex17 [] [infReg, infReg, infReg, affReg 5 2] with dvchk := true })
      = some 0x63#32 := by decide +kernel
/-- V-ORD-1. -/
theorem test_pord : see (fun s => s.reg 1) (exec (.pord 1 2) (ex17 [] [infReg, infReg, affReg 5 1])) = some 19 := by decide +kernel
/-- R176, R235 by hand: with the counter's limit at 3, the point of order 19 overflows; with a point of order 2 it does not. -/
theorem test_pord_overflow :
    see (fun s => s.statusWord) (exec (.pord 1 2) { ex17 [] [infReg, infReg, affReg 5 1] with width := 2 }) = some 0x53#32
      ∧ see (fun s => s.reg 1) (exec (.pord 1 2) { ex17 [] [infReg, infReg, affReg 3 0] with width := 2 }) = some 2 := by decide +kernel

/-! ## Codec -/

/-- V-CODEC-1. -/
theorem test_encf : see (fun s => s.pt 1) (exec (.encf 1 2) (s8 [] [infReg, infReg, affReg 116485 32401])) = some (affReg 77023 171305) := by
  decide
/-- V-CODEC-2 and V-CODEC-10. -/
theorem test_decf :
    see (fun s => s.pt 4) (exec (.decf 4 3) (s8 [] [infReg, infReg, infReg, affReg 77023 171305])) = some (affReg 116485 32401)
      ∧ see (fun s => s.pt 4) (exec (.decf 4 1) (conf 17 2 14 6 [] [infReg, affReg 6 12])) = some (affReg 3 1) := by decide

/-! ## The step -/

/-- The state of a step from the given units. -/
def stepUnits (s : State) (us : List Nat) : Host.Outcome State Fault Refusal := step { s with units := us }

/-- V-FLD-22: NotConfigured from reset. -/
theorem test_step_not_configured :
    see (fun s => (s.statusWord, s.fcmd, s.units)) (stepUnits State.reset [0x40488000, 5]) = some (0x22#32, 0x40488000#32, [5]) := by decide
/-- V-ENC-9: an illegal LDR word takes its beat, which is not decoded as CLRF. -/
theorem test_step_illegal_ldr :
    see (fun s => (s.statusWord, s.fcmd, s.units, s.reg 3)) (stepUnits (ex17 [17, 2, 1, 2, 1] []) [0x04C40000, 0x18000000])
      = some (0x13#32, 0x04C40000#32, [], 2) := by decide
/-- V-ENC-10: a discarded LDR takes its beat. -/
theorem test_step_discards :
    see (fun s => (s.statusWord, s.units, s.reg 3)) (stepUnits { ex17 [17, 2, 1, 2, 1] [] with fault := true, fcode := 1 } [0x04C00000, 0x2A, 7])
      = some (0x13#32, [7], 2) := by decide
/-- R39(a): the LDR word alone, and then its beat. -/
theorem test_step_awaits_beat :
    see (fun s => (s.rx, s.units)) (stepUnits State.reset [0x04C00000]) = some (.awaitBeat 0x04C00000#32, [])
      ∧ see (fun s => (s.rx, s.reg 3)) (stepUnits { State.reset with rx := .awaitBeat 0x04C00000#32 } [42]) = some (.idle, 42) := by decide
/-- R261, for every value of the free word (log 19): a beat wider than a word that stands next after a reset between LDR and beat is framed
as a command word, so it is no misfit. -/
theorem test_reset_takes_wide_beat_as_word :
    (State.reset.resetEvent 0).rx = .idle
      ∧ { State.reset with rx := .awaitBeat 0x04C00000#32, units := [2 ^ 255] }.onHost (.reset 0) = { State.reset with units := [2 ^ 255] }
      ∧ frame 256 [2 ^ 255] ≠ .misfit := by
  refine ⟨by decide, by decide, ?_⟩
  rw [frame, if_pos (by decide)]
  split <;> simp
/-- A table word runs as the first instruction after reset. -/
theorem test_step_table_word :
    see (fun s => s.sent) (step (State.reset.withFetchWord 32 0x08140000)) = some [0]
      ∧ see (fun s => (s.reg 3, s.units)) (step (State.reset.withFetchWord 32 0x04C00000)) = some (0, []) := by decide

/-! ## Witnesses

For each statement of Certificates/Slice0/Obligations.lean with hypotheses, a concrete state and operands that meet all of them together,
clause by clause. -/

/-- The reset state with the given units. -/
def fresh (us : List Nat) : State := { State.reset with units := us }
/-- A faulted state with the given units. -/
def faulted (us : List Nat) : State := { ex17 [17, 2, 1, 2, 1] [] with fault := true, fcode := 4, fcmd := 0x4C480000#32, units := us }
/-- A core that has taken the word of `ldr r3` and not its beat. -/
def awaiting (us : List Nat) : State := { fresh us with rx := .awaitBeat 0x04C00000#32 }
/-- What a step or a command leaves of the fault record: FAULT and FCODE. -/
def record (o : Host.Outcome State Fault Refusal) : Option (Bool × BitVec 4) := see (fun t => (t.fault, t.fcode)) o

theorem witness_DecodeUnitsOfEncode :
    (Instr.ldr 15 (2 ^ 256 - 1)).wellFormed 256 = true ∧ (Instr.rdcsr 0 8).wellFormed 32 = true ∧ (Instr.cinit 11).wellFormed 32 = true := by
  decide
theorem witness_EncodeOfDecode : decode 0xA7FC0000#32 0 = .ok (.decf 15 15) ∧ decode 0x07C00000#32 9 = .ok (.ldr 15 9) := by decide
theorem witness_UnassignedOpcodesAreIllegal :
    [0x00, 0x07, 0x09, 0x0F, 0x15, 0x17, 0x1E, 0x1F, 0x26, 0x27, 0x2A, 0x3F].map (fun op => decode (BitVec.ofNat 32 (op * 0x4000000)) 0)
      = List.replicate 12 (.error .unassignedOpcode) := by decide
theorem witness_StepRunsDecodedCommand :
    ((Instr.cinit 11).wellFormed 256 = true ∧ (fresh [0x202C0000, 7]).units = encode (.cinit 11) ++ [7] ∧ (fresh []).fault = false)
      ∧ ((Instr.str 15).wellFormed 256 = true ∧ (faulted [0x083C0000]).units = encode (.str 15) ∧ (faulted []).rx = .idle)
      ∧ ((awaiting [42]).rx = .awaitBeat 0x04C00000#32 ∧ (42 : Nat) < 2 ^ 256 ∧ decode 0x04C00000#32 42 = .ok (.ldr 3 42)) := by decide
theorem witness_LoneLdrWordAwaitsBeat :
    (0x04C40000#32).extractLsb' 26 6 = 0x01#6 ∧ (fresh [0x04C40000]).units = [(0x04C40000#32).toNat] ∧ (fresh []).rx = .idle := by decide
theorem witness_StepStopsOnlyToWait :
    ((fresh []).rx = .idle ∧ (fresh []).units = []) ∧ ((awaiting []).rx = .awaitBeat 0x04C00000#32 ∧ (awaiting []).units = [])
      ∧ ({ fresh [0x083C0000] with ready := false }.units = [(commandWord 0x08000000 0 15 0).toNat])
      ∧ ((awaiting [2 ^ 256 - 1, 2 ^ 32 - 1]).rx.ok = true ∧ (awaiting [2 ^ 256 - 1, 2 ^ 32 - 1]).channelOk = true) := by decide
theorem witness_IllegalWordCommitsIllegalCommand :
    ((fresh [0, 5]).units = unitsOfWord 0#32 0 ++ [5] ∧ decode 0#32 0 = .error .unassignedOpcode)
      ∧ ((fresh [0x04C40000, 2 ^ 256 - 1]).units = unitsOfWord 0x04C40000#32 (2 ^ 256 - 1) ++ []
        ∧ decode 0x04C40000#32 (2 ^ 256 - 1) = .error .unusedField)
      ∧ ({ fresh [0] with rx := .awaitBeat 0x04C40000#32 }.rx = .awaitBeat 0x04C40000#32 ∧ decode 0x04C40000#32 0 = .error .unusedField) := by
  decide
theorem witness_FaultedCoreRunsOnlyStrRdcsrClrf :
    ((faulted [0x18000000]).fault = true ∧ (faulted [0x18000000]).units = encode .clrf ∧ (faulted []).rx = .idle)
      ∧ (record (exec (.rdcsr 0 8) (faulted [])) = some (true, 4) ∧ (Instr.rdcsr 0 8).wellFormed 256 = true)
      ∧ ((faulted [0x20000000, 5]).units = unitsOfWord 0x20000000#32 0 ++ [5] ∧ decode 0x20000000#32 0 = .ok (.cinit 0))
      ∧ ({ faulted [7] with rx := .awaitBeat 0x04C00000#32 }.fault = true ∧ (0x04C00000#32).extractLsb' 26 6 = 0x01#6) := by decide
theorem witness_OnlyClrfEndsFaultedState :
    (faulted [0x18000000]).rx.ok = true ∧ (faulted [0x18000000]).fault = true ∧ wordOfUnit 0x18000000 = 0x18000000#32 ∧ record (step (faulted [0x18000000])) = some (false, 0) := by
  decide
theorem witness_FaultedStepKeepsRecordAndConfiguration : (faulted [0]).fault = true ∧ record (step (faulted [0])) = some (true, 4) := by
  decide
theorem witness_FaultCommitIsPrecise :
    (ex17 [0, 99, 17] []).fault = false ∧ record (exec (.minv 1 2) (ex17 [0, 99, 17] [])) = some (true, 4) := by decide
theorem witness_FaultCodeNamesItsRaisers :
    record (exec (.encf 1 2) State.reset) = some (true, 2) ∧ record (exec (.cinit 0) State.reset) = some (true, 3)
      ∧ record (exec (.minv 1 2) (ex17 [] [])) = some (true, 4)
      ∧ record (exec (.pord 1 2) { ex17 [] [infReg, infReg, affReg 5 1] with width := 1 }) = some (true, 5)
      ∧ record (exec (.pdbl 1 2) { ex17 [] [infReg, infReg, affReg 5 2] with dvchk := true }) = some (true, 6) := by decide
theorem witness_ComputingCommandsNeedConfiguration :
    State.reset.cfg = false ∧ State.reset.fault = false ∧ record (exec (.decf 1 2) State.reset) = some (true, 2) := by decide
theorem witness_ResetDiscardsPartlyReceivedCommand :
    (awaiting [0x202C0000]).rx = .awaitBeat 0x04C00000#32 ∧ (awaiting [0x202C0000]).units = encode (.cinit 11) ++ []
      ∧ (Instr.cinit 11).wellFormed 256 = true := by decide
/-- The clauses on any unit: a legal and an illegal word, and the widest lawful beat. -/
theorem witness_ResetDiscardsPartlyReceivedCommand_units :
    (Word.hasBeat (wordOfUnit 0x18000000) = false ∧ decode (wordOfUnit 0x18000000) 0 = .ok .clrf)
      ∧ (Word.hasBeat (wordOfUnit (2 ^ 32 - 1)) = false ∧ decode (wordOfUnit (2 ^ 32 - 1)) 0 = .error .unassignedOpcode)
      ∧ (fresh [2 ^ 256 - 1]).rx = .idle ∧ (2 ^ 256 - 1 : Nat) < 2 ^ (fresh []).width ∧ 32 ≤ (fresh []).width := by decide
theorem witness_ResetMeetsInvariant : 32 ≤ 32 ∧ 32 < 2 ^ 32 ∧ 32 ≤ 2 ^ 32 - 1 ∧ 2 ^ 32 - 1 < 2 ^ 32 := by decide
/-- A configured state within the invariant, with one command to run: `madd r1, r2, r3`. -/
theorem witness_StepKeepsInvariant :
    { ex17 [17, 2, 2 ^ 256 - 1] [] with units := [0x4048C000] }.Inv
      ∧ see (fun t => t.reg 1) (step { ex17 [17, 2, 2 ^ 256 - 1] [] with units := [0x4048C000] }) = some 0 := by decide +kernel
/-- The same for a faulted state. -/
theorem witness_HostMovesKeepInvariant : (faulted [5]).Inv := by decide +kernel
theorem witness_ReachableStatesMeetInvariant :
    Reachable (State.resetAt 32) ∧ (awaiting [5, 0]).channelOk = true ∧ record (step (awaiting [5, 0])) = some (false, 0) :=
  ⟨.reset 32 (by decide) (by decide), by decide⟩
theorem witness_OnlyCinitWritesConfiguration :
    record (exec .clrf (ex17 [] [])) = some (false, 0) ∧ (faulted [0]).cfg = true ∧ record (step (faulted [0])) = some (true, 4) := by decide
theorem witness_OnlyWrcsrWritesCtrlOnlyStrSends :
    record (exec (.str 15) (ex17 [] [])) = some (false, 0) ∧ record (exec (.wrcsr 1 0) (ex17 [] [])) = some (false, 0) := by decide
theorem witness_CommandsWriteOnlyTheirDestination :
    record (exec (.pgx 15 0) (ex17 [] [])) = some (false, 0) ∧ record (exec (.minv 1 2) (ex17 [] [])) = some (true, 4)
      ∧ record (exec (.str 0) (faulted [])) = some (true, 4) := by decide
theorem witness_ComputedResultsAreReduced :
    (ex17 [0, 0, 40] [infReg, infReg, affReg 3 0]).Inv
      ∧ [Instr.madd 1 2 2, .encf 0 2, .pchk 0 2, .pord 0 2].map (fun i => record (exec i (ex17 [0, 0, 40] [infReg, infReg, affReg 3 0])))
        = List.replicate 4 (some (false, 0)) := by decide +kernel
theorem witness_RunTakesEveryUnit :
    (fresh [0x04C00000, 2 ^ 256 - 1, 0x080C0000]).ready = true ∧ (fresh [0x04C00000, 2 ^ 256 - 1, 0x080C0000]).channelOk = true := by decide
theorem witness_RunIgnoresLaterUnits :
    see (fun t => t.rx) (Host.Core.run Sys2Proof.core 1 (fresh [0x04C00000, 42])) = some .idle := by decide
theorem witness_BeatMayArriveLater :
    (fresh [0x04C00000]).rx = .idle ∧ (fresh [0x04C00000]).units = [(0x04C00000#32).toNat] ∧ (0x04C00000#32).extractLsb' 26 6 = 0x01#6
      ∧ (2 ^ 256 - 1 : Nat) < 2 ^ (fresh []).width := by decide
theorem witness_StrSendsOneBeat : (fresh []).ready = true ∧ { fresh [] with ready := false }.ready = false := by decide
theorem witness_RdcsrReadsEveryCsr : (fresh []).width < 2 ^ 32 ∧ (0 : CsrNum).val ≤ 8 ∧ (8 : CsrNum).val ≤ 8 := by decide
theorem witness_ClrfClearsFaultRegisters : State.reset.Inv ∧ State.reset.fault = false := by decide +kernel
theorem witness_PointReadsReturnStoredFields : State.reset.Inv ∧ (State.reset.pt 15).inf = true := by decide +kernel

/-- What the result statements ask of a configured state and of one without a configuration (MADD, MSUB, MMUL, MEXP, PCHK). -/
theorem witness_configured : (ex17 [] []).cfg = true ∧ 3 < (ex17 [] []).cp ∧ State.reset.cfg = false ∧ State.reset.fault = false := by decide
theorem witness_MinvWritesTheUniqueInverse :
    Nat.gcd ((ex17 [0, 0, 3] []).reg 2 % 17) 17 = 1 ∧ Nat.gcd ((ex17 [] []).reg 2 % 17) 17 ≠ 1 ∧ (ex17 [] []).fault = false := by decide
theorem witness_CinitCommitsOrLeavesConfiguration :
    (ex17 [0, 0, 0, 0, 0, 0, 0, 0, 0, 0, 0, 3] []).reg 11 ≤ 3
      ∧ (3 < (ex17 [4, 1, 2, 1, 1] []).reg 0 ∧ Nat.gcd ((ex17 [4, 1, 2, 1, 1] []).reg 2 % 4) 4 ≠ 1)
      ∧ (3 < (ex17 [4, 1, 1, 1, 2] []).reg 0 ∧ Nat.gcd ((ex17 [4, 1, 1, 1, 2] []).reg 4 % 4) 4 ≠ 1)
      ∧ (3 < (ex17 [4, 1, 1, 1, 3] []).reg 0 ∧ Nat.gcd ((ex17 [4, 1, 1, 1, 3] []).reg 2 % 4) 4 = 1
        ∧ Nat.gcd ((ex17 [4, 1, 1, 1, 3] []).reg 4 % 4) 4 = 1) := by decide
theorem witness_CinitMakesScaleInvertible :
    record (exec (.cinit 0) (ex17 [178987, 7, 3, 2, 5] [])) = some (false, 0)
      ∧ ((s8 [] []).cfg = true ∧ (s8 [] []).cp = 178987 ∧ (s8 [] []).cl = 15 ∧ (s8 [] []).fault = false) := by decide
/-- PNEG, ENCF and DECF: an identity and an affine operand. -/
theorem witness_PnegNegates :
    (ex17 [] [infReg, affReg 22 18]).cfg = true ∧ ((ex17 [] [infReg, affReg 22 18]).pt 0).inf = true
      ∧ ((ex17 [] [infReg, affReg 22 18]).pt 1).inf = false ∧ 0 < (ex17 [] []).cp := by decide
/-- Without the domain check every operand is admitted. -/
theorem admits_of_dvchk_clear {s : State} (h : s.dvchk = false) (i : PtIdx) : s.admits i := fun hd => by rw [h] at hd; cases hd
/-- With it, an operand on the curve is. -/
theorem witness_admits_checked : { ex17 [] [affReg 22 18] with dvchk := true }.admits 0 := fun _ => (onCurve_iff (by decide) _).mp (by decide)
/-- The point operands of the PADD and PDBL statements over Ex17: INF, a point, its inverse unreduced, itself unreduced, another point, one
with the same x that is neither, and one with `y = 0`. -/
def pts17 : State := ex17 [] [infReg, affReg 5 1, affReg 22 16, affReg 22 18, affReg 6 3, affReg 5 2, affReg 3 0]
/-- The same over Ex15: (1, 5) and (4, 5), where `2y` and the difference of the x are not units. -/
def pts15 : State := ex15 [] [affReg 1 5, affReg 4 5]

theorem witness_padd_operands :
    (∀ i, pts17.admits i) ∧ (∀ i, pts15.admits i) ∧ pts17.cfg = true ∧ 3 < pts17.cp ∧ pts17.fault = false ∧ pts15.cfg = true ∧ 3 < pts15.cp
      ∧ pts15.fault = false :=
  ⟨admits_of_dvchk_clear rfl, admits_of_dvchk_clear rfl, by decide⟩
theorem witness_PaddIdentityAndInverse :
    (pts17.pt 0).inf = true ∧ (pts17.pt 1).inf = false ∧ (pts17.pt 2).inf = false ∧ (pts17.pt 1).x % pts17.cp = (pts17.pt 2).x % pts17.cp
      ∧ ((pts17.pt 1).y + (pts17.pt 2).y) % pts17.cp = 0 := by decide
theorem witness_PaddDoublingBranch :
    (pts17.pt 1).inf = false ∧ (pts17.pt 3).inf = false ∧ (pts17.pt 3).x % pts17.cp = (pts17.pt 1).x % pts17.cp
      ∧ (pts17.pt 3).y % pts17.cp = (pts17.pt 1).y % pts17.cp ∧ Nat.gcd ((2 * ((pts17.pt 1).y % pts17.cp)) % pts17.cp) pts17.cp = 1 := by decide
theorem witness_PaddGeneralBranch :
    (pts17.pt 1).inf = false ∧ (pts17.pt 4).inf = false ∧ (pts17.pt 1).x % pts17.cp ≠ (pts17.pt 4).x % pts17.cp
      ∧ Int.gcd (((pts17.pt 4).x % pts17.cp : Nat) - ((pts17.pt 1).x % pts17.cp : Nat)) pts17.cp = 1 := by decide
theorem witness_PaddDegenerateRaisesNoInverse :
    ((pts17.pt 1).x % 17 = (pts17.pt 5).x % 17 ∧ (pts17.pt 1).y % 17 ≠ (pts17.pt 5).y % 17 ∧ ((pts17.pt 1).y % 17 + (pts17.pt 5).y % 17) % 17 ≠ 0)
      ∧ (((pts15.pt 0).y % 15 + (pts15.pt 0).y % 15) % 15 ≠ 0 ∧ Nat.gcd ((2 * ((pts15.pt 0).y % 15)) % 15) 15 ≠ 1 ∧ (pts15.pt 0).inf = false)
      ∧ ((pts15.pt 0).x % 15 ≠ (pts15.pt 1).x % 15 ∧ (pts15.pt 1).inf = false
        ∧ Int.gcd (((pts15.pt 1).x % 15 : Nat) - ((pts15.pt 0).x % 15 : Nat)) (15 : Nat) ≠ 1) := by decide
theorem witness_PdblDoubles :
    ((pts17.pt 0).inf = true ∧ (pts17.pt 6).inf = false ∧ (2 * ((pts17.pt 6).y % pts17.cp)) % pts17.cp = 0)
      ∧ ((pts17.pt 1).inf = false ∧ Nat.gcd ((2 * ((pts17.pt 1).y % pts17.cp)) % pts17.cp) pts17.cp = 1)
      ∧ ((pts15.pt 0).inf = false ∧ (2 * ((pts15.pt 0).y % pts15.cp)) % pts15.cp ≠ 0
        ∧ Nat.gcd ((2 * ((pts15.pt 0).y % pts15.cp)) % pts15.cp) pts15.cp ≠ 1) := by decide
/-- An operand that is not admitted (PADD, PDBL, SMUL, PORD), and a fault with the check off. -/
theorem witness_DomainCheckComesFirst :
    ¬ { ex17 [] [affReg 5 2] with dvchk := true }.admits 0 ∧ record (exec (.padd 1 0 1) (ex17 [] [affReg 5 1, affReg 5 2])) = some (true, 4) :=
  ⟨fun h => absurd ((onCurve_iff (by decide) _).mpr (h rfl)) (by decide), by decide⟩
theorem witness_GroupLawIgnoresB : (ex17 [] [affReg 5 1]).dvchk = false ∧ record (exec (.pdbl 1 0) (ex17 [] [affReg 5 1])) = some (false, 0) := by decide
/-- The loop of SMUL with a result, and with a fault in the doubling it does not need (V-SMUL-7). -/
theorem witness_SmulIsDoubleAndAdd :
    DoubleAndAdd (ex17 [] []).curve ((ex17 [] []).reg 2) ((ex17 [] [affReg 5 1]).canonPt 0) .inf (.ok .inf)
      ∧ DoubleAndAdd (ex15 [] []).curve 1 ((ex15 [] [affReg 1 5]).canonPt 0) .inf (.error .noInverse) :=
  ⟨.done _ _, .doubleFailsOdd (result' := .aff 1 5) rfl (by decide) (by decide)⟩
theorem witness_SmulAndPordCornerCases :
    (ex17 [] [affReg 5 2]).reg 2 = 0 ∧ ((ex17 [] []).pt 2).inf = true ∧ ((ex17 [] [affReg 3 0]).pt 0).inf = false ∧ 32 ≤ (ex17 [] []).width
      ∧ (2 * (((ex17 [] [affReg 3 0]).pt 0).y % 17)) % 17 = 0 := by decide
/-- The scan of PORD with a count, with an addition that fails, and at its limit on a core of width 1. -/
theorem witness_PordIsOrderScan :
    OrderScan (ex17 [] []).curve 256 (.aff 3 0) (.aff 3 0) 1 (.ok 2) ∧ OrderScan (ex15 [] []).curve 256 (.aff 1 5) (.aff 1 5) 1 (.error .noInverse)
      ∧ OrderScan (ex17 [] []).curve 1 (.aff 5 1) (.aff 5 1) 1 (.error .orderOverflow) :=
  ⟨.next (q' := .inf) (by decide) (by decide) (by decide) (.found 2), .addFails (by decide) (by decide) (by decide), .overflow (by decide) rfl⟩
/-- DECF: `l` a unit, and (in a state no CINIT leaves) not a unit. -/
theorem witness_DecfUnscales :
    ((s8 [] [affReg 2 3]).pt 0).inf = false ∧ Nat.gcd ((s8 [] []).cl % (s8 [] []).cp) (s8 [] []).cp = 1
      ∧ Nat.gcd ((conf 15 2 2 3 [] []).cl % 15) 15 ≠ 1 ∧ (conf 15 2 2 3 [] [affReg 2 3]).cfg = true := by decide
theorem witness_CodecRoundTrip : (s8 [] [affReg (2 ^ 256 - 1) 3]).Inv ∧ (s8 [] []).cfg = true := by decide +kernel

end Sys2Proof.Tests
end

namespace Sys2Proof.Machine

/-! ## Lemmas about the shared operations

The word a command writes to FCMD, what a computing command does without a configuration, and what it has done when no fault is
pending after it. -/

theorem withScalar_eq_setReg (s : State) (rd : RegIdx) (v : Nat) : withScalar s rd v = s.setReg rd v := rfl

/-- Without a configuration and with no fault pending, a computing command commits NotConfigured (60_exceptions.md R232). -/
theorem State.computing_notConfigured {s : State} (hcfg : s.cfg = false) (hf : s.fault = false) (w : Word)
    (body : State → Except Raise State) :
    s.computing w body = .next { s with fault := true, fcode := 2, fcmd := w } := by
  rw [State.computing_of_no_cfg hcfg, State.commitFault_of_clear hf]
  rfl

/-- A computing command that leaves no fault pending found a configuration and made its writes. -/
theorem State.computing_of_no_fault {s t : State} {w : Word} {body : State → Except Raise State}
    (h : s.computing w body = .next t) (hf : t.fault = false) : s.cfg = true ∧ body s = .ok t := by
  rcases State.computing_next h with ⟨-, rfl⟩ | ⟨hcfg, hb | ⟨e, -, rfl⟩⟩
  · simp at hf
  · exact ⟨hcfg, hb⟩
  · simp at hf

/-- A computation that ends well after a domain check passed the check. -/
theorem State.domainCheck_bind_ok {α : Type} {s : State} {v : Point} {r : Except Raise α} {a : α}
    (h : (do s.domainCheck v; r) = .ok a) : r = .ok a :=
  (State.domainCheck_bind h).resolve_left nofun

/-- A sequence that ends well has a first value, and the rest ends well on it. -/
theorem exceptBind_ok {ε α β : Type} {x : Except ε α} {f : α → Except ε β} {b : β} (h : x >>= f = .ok b) :
    ∃ a, x = .ok a ∧ f a = .ok b := by
  cases x with
  | error e => cases h
  | ok a => exact ⟨a, rfl, h⟩

/-- With a configuration the modulus is positive (10_state.md R40). -/
theorem State.Inv.cp_pos {s : State} (hinv : s.Inv) (hcfg : s.cfg = true) : 0 < s.cp := by
  obtain ⟨-, -, -, ⟨hconf, -⟩, -⟩ := hinv
  obtain ⟨hp, -⟩ := hconf hcfg
  omega

/-! ## MINV: O40 -/

/-- MINV of a unit writes its inverse and nothing else (00_scope.md R11). -/
theorem exec_minv_of_coprime {s : State} {rs1 : RegIdx} (hcfg : s.cfg = true) (hp : 1 < s.cp)
    (hg : Nat.gcd (s.reg rs1 % s.cp) s.cp = 1) (rd : RegIdx) :
    ∃ b, IsInverse s.cp (s.reg rs1) b ∧ exec (.minv rd rs1) s = .next (withScalar s rd b) := by
  obtain ⟨b, hb, hinv⟩ := invP_of_coprime (a := (s.reg rs1 : Int)) hp (by rwa [modP_natCast])
  refine ⟨b, hinv, ?_⟩
  simp only [exec, execMinv, State.computing_of_cfg hcfg, hb, State.conclude_ok, withScalar_eq_setReg]

/-- MINV of anything else commits NoInverse (40_field_arithmetic.md R104). -/
theorem exec_minv_of_not_coprime {s : State} {rs1 : RegIdx} (hcfg : s.cfg = true) (hf : s.fault = false)
    (hg : Nat.gcd (s.reg rs1 % s.cp) s.cp ≠ 1) (rd : RegIdx) :
    exec (.minv rd rs1) s = .next { s with fault := true, fcode := 4, fcmd := encodeWord (.minv rd rs1) } := by
  have hb : invP s.cp (s.reg rs1) = .error .noInverse := invP_of_not_coprime (by rwa [modP_natCast])
  simp only [exec, execMinv, State.computing_of_cfg hcfg, hb, State.conclude_error, State.commitFault_of_clear hf, Raise.code]

/-- MINV without a configuration commits NotConfigured (60_exceptions.md R232). -/
theorem exec_minv_notConfigured {s : State} (hcfg : s.cfg = false) (hf : s.fault = false) (rd rs1 : RegIdx) :
    exec (.minv rd rs1) s = .next { s with fault := true, fcode := 2, fcmd := encodeWord (.minv rd rs1) } := by
  simp only [exec, execMinv, State.computing_notConfigured hcfg hf]

theorem encodeWord_minv (rd rs1 : RegIdx) : encodeWord (.minv rd rs1) = commandWord 0x4C000000 rd rs1 0 := by
  have hop : (Instr.minv rd rs1).mnemonic.opcode = 0x13 := rfl
  exact encodeWord_eq_commandWord (i := .minv rd rs1) (by rw [hop])

/-- Settles O40: MINV is `invP`, whose value is an inverse exactly where the gcd is 1, and inverses modulo `p` are unique. -/
theorem minvWritesTheUniqueInverse : Obligations.MinvWritesTheUniqueInverse := by
  unfold Obligations.MinvWritesTheUniqueInverse
  intro s rd rs1
  rw [← encodeWord_minv]
  refine ⟨fun hcfg hp hg => ?_, fun hcfg hf _ hg => exec_minv_of_not_coprime hcfg hf hg rd,
    fun hcfg hf => exec_minv_notConfigured hcfg hf rd rs1⟩
  obtain ⟨b, hb, hexec⟩ := exec_minv_of_coprime hcfg (by omega) hg rd
  exact ⟨b, hb, fun _ hb' => hb.unique hb', hexec⟩

/-! ## Results of the computing commands: O25 -/

theorem invP_lt {p b : Nat} {a : Int} (hp : 0 < p) (h : invP p a = .ok b) : b < p := by
  unfold invP at h
  split at h
  · cases h; exact modP_lt _ hp
  · cases h

theorem Point.reduced.neg {p : Nat} {v : Point} (h : v.reduced p) : (v.neg p).reduced p := by
  cases v with
  | inf => trivial
  | aff x y => exact ⟨h.1, modP_lt _ (Nat.zero_lt_of_lt h.1)⟩

theorem Point.reduced_scale {p : Nat} (hp : 0 < p) (k : Nat) (v : Point) : (v.scale p k).reduced p := by
  cases v with
  | inf => trivial
  | aff x y => exact ⟨Nat.mod_lt _ hp, Nat.mod_lt _ hp⟩

theorem fromFractional_reduced {c : Curve} {v u : Point} (hp : 0 < c.p) (h : fromFractional c v = .ok u) : u.reduced c.p := by
  cases v with
  | inf => cases h; trivial
  | aff x y =>
    simp only [fromFractional] at h
    split at h
    · cases h
    · cases h; exact Point.reduced_scale hp _ _

/-- A reduced point is stored with both fields below `p`, `INF` too (00_scope.md R13, R17). -/
theorem Point.toReg_lt {p : Nat} {v : Point} (hp : 0 < p) (h : v.reduced p) : v.toReg.x < p ∧ v.toReg.y < p := by
  cases v with
  | inf => exact ⟨hp, hp⟩
  | aff x y => exact h

/-- The scan's count starts at 1 and stays below `2^W` (43_scalar_and_order.md R176). -/
theorem orderScan_range {c : Curve} {W n : Nat} {g : Point} (hW : 1 ≤ W) (h : orderScan c W g = .ok n) : 1 ≤ n ∧ n < 2 ^ W := by
  have hpow : 2 ^ 1 ≤ 2 ^ W := Nat.pow_le_pow_right (by omega) hW
  rcases orderLoop_cases h with ⟨m, hm, hlow, hhigh⟩ | he | he
  · cases hm; omega
  · cases he
  · cases he

theorem boolValue_le_one (b : Bool) : boolValue b ≤ 1 := by cases b <;> decide

/-- A computing command whose body only writes a scalar register leaves that scalar there, if it leaves no fault. -/
theorem State.computing_reg {s t : State} {w : Word} {rd : RegIdx} {v : State → Nat}
    (h : s.computing w (fun s => .ok (s.setReg rd (v s))) = .next t) (hf : t.fault = false) :
    s.cfg = true ∧ t.reg rd = v s := by
  obtain ⟨hcfg, hb⟩ := State.computing_of_no_fault h hf
  cases hb
  exact ⟨hcfg, State.reg_setReg_self s rd (v s)⟩

/-- If that scalar lies below a positive `p`, so does the register. -/
theorem State.computing_reg_lt {s t : State} {w : Word} {rd : RegIdx} {v : State → Nat} (hinv : s.Inv)
    (h : s.computing w (fun s => .ok (s.setReg rd (v s))) = .next t) (hf : t.fault = false) (hv : 0 < s.cp → v s < s.cp) :
    t.reg rd < s.cp := by
  obtain ⟨hcfg, hreg⟩ := State.computing_reg h hf
  exact hreg ▸ hv (hinv.cp_pos hcfg)

/-- A computing command whose body only writes a reduced point leaves both fields of that point below `p`, if it leaves no fault. -/
theorem State.computing_pt_lt {s t : State} {w : Word} {pd : PtIdx} {body : State → Except Raise State} (hinv : s.Inv)
    (h : s.computing w body = .next t) (hf : t.fault = false)
    (hbody : 0 < s.cp → body s = .ok t → ∃ v : Point, v.reduced s.cp ∧ s.setPt pd v = t) :
    (t.pt pd).x < s.cp ∧ (t.pt pd).y < s.cp := by
  obtain ⟨hcfg, hb⟩ := State.computing_of_no_fault h hf
  have hp := hinv.cp_pos hcfg
  obtain ⟨v, hv, rfl⟩ := hbody hp hb
  rw [State.setPt_eq, State.pt_setPtReg_self]
  exact Point.toReg_lt hp hv

/-- A body that ends by storing a computed point has stored a reduced one, if the computation gives only such. -/
theorem State.bind_setPt_reduced {s t : State} {pd : PtIdx} {x : Except Raise Point}
    (h : (do let v ← x; return s.setPt pd v) = .ok t) (hx : ∀ v, x = .ok v → v.reduced s.cp) :
    ∃ v : Point, v.reduced s.cp ∧ s.setPt pd v = t := by
  obtain ⟨v, hv, hset⟩ := exceptBind_ok h
  exact ⟨v, hx v hv, Except.ok.inj hset⟩

/-! ### The field arithmetic commands write a scalar below `p` (40_field_arithmetic.md R100) -/

theorem execMadd_lt {rd rs1 rs2 : RegIdx} {s t : State} (hinv : s.Inv) (h : execMadd rd rs1 rs2 s = .next t)
    (hf : t.fault = false) : t.reg rd < s.cp :=
  State.computing_reg_lt hinv h hf (Nat.mod_lt _)

theorem execMsub_lt {rd rs1 rs2 : RegIdx} {s t : State} (hinv : s.Inv) (h : execMsub rd rs1 rs2 s = .next t)
    (hf : t.fault = false) : t.reg rd < s.cp :=
  State.computing_reg_lt hinv h hf (modP_lt _)

theorem execMmul_lt {rd rs1 rs2 : RegIdx} {s t : State} (hinv : s.Inv) (h : execMmul rd rs1 rs2 s = .next t)
    (hf : t.fault = false) : t.reg rd < s.cp :=
  State.computing_reg_lt hinv h hf (Nat.mod_lt _)

theorem execMexp_lt {rd base exp : RegIdx} {s t : State} (hinv : s.Inv) (h : execMexp rd base exp s = .next t)
    (hf : t.fault = false) : t.reg rd < s.cp :=
  State.computing_reg_lt hinv h hf (Nat.mod_lt _)

theorem execMinv_lt {rd rs1 : RegIdx} {s t : State} (hinv : s.Inv) (h : execMinv rd rs1 s = .next t)
    (hf : t.fault = false) : t.reg rd < s.cp := by
  obtain ⟨hcfg, hb⟩ := State.computing_of_no_fault h hf
  split at hb
  · rename_i v hv
    cases hb
    exact (State.reg_setReg_self s rd v).symm ▸ invP_lt (hinv.cp_pos hcfg) hv
  · cases hb

theorem exec_fieldArith_lt {i : Instr} {s t : State} (hinv : s.Inv) (h : exec i s = .next t) (hf : t.fault = false)
    (hm : i.mnemonic ∈ [.madd, .msub, .mmul, .minv, .mexp]) {rd : RegIdx} (hd : i.scalarDest = some rd) : t.reg rd < s.cp := by
  cases i with
  | madd rd rs1 rs2 => cases hd; exact execMadd_lt hinv h hf
  | msub rd rs1 rs2 => cases hd; exact execMsub_lt hinv h hf
  | mmul rd rs1 rs2 => cases hd; exact execMmul_lt hinv h hf
  | minv rd rs1 => cases hd; exact execMinv_lt hinv h hf
  | mexp rd base exp => cases hd; exact execMexp_lt hinv h hf
  | _ => simp [Instr.mnemonic] at hm

/-! ### The point commands write a reduced point (42_point_ops.md R142; 00_scope.md R17) -/

theorem execPneg_lt {pd ps : PtIdx} {s t : State} (hinv : s.Inv) (h : execPneg pd ps s = .next t) (hf : t.fault = false) :
    (t.pt pd).x < s.cp ∧ (t.pt pd).y < s.cp :=
  State.computing_pt_lt hinv h hf fun hp hb => ⟨_, (Point.reduced_canon hp _).neg, Except.ok.inj hb⟩

theorem execEncf_lt {pd ps : PtIdx} {s t : State} (hinv : s.Inv) (h : execEncf pd ps s = .next t) (hf : t.fault = false) :
    (t.pt pd).x < s.cp ∧ (t.pt pd).y < s.cp :=
  State.computing_pt_lt hinv h hf fun hp hb => ⟨_, Point.reduced_scale hp _ _, Except.ok.inj hb⟩

theorem execDecf_lt {pd ps : PtIdx} {s t : State} (hinv : s.Inv) (h : execDecf pd ps s = .next t) (hf : t.fault = false) :
    (t.pt pd).x < s.cp ∧ (t.pt pd).y < s.cp := by
  refine State.computing_pt_lt hinv h hf fun hp hb => ?_
  split at hb
  · rename_i v hv
    exact ⟨v, fromFractional_reduced hp hv, Except.ok.inj hb⟩
  · cases hb

theorem execPadd_lt {pd ps1 ps2 : PtIdx} {s t : State} (hinv : s.Inv) (h : execPadd pd ps1 ps2 s = .next t)
    (hf : t.fault = false) : (t.pt pd).x < s.cp ∧ (t.pt pd).y < s.cp :=
  State.computing_pt_lt hinv h hf fun hp hb =>
    State.bind_setPt_reduced (State.domainCheck_bind_ok (State.domainCheck_bind_ok hb)) fun _ hv =>
      ecadd_reduced hp (Point.reduced_canon hp _) (Point.reduced_canon hp _) hv

theorem execPdbl_lt {pd ps : PtIdx} {s t : State} (hinv : s.Inv) (h : execPdbl pd ps s = .next t) (hf : t.fault = false) :
    (t.pt pd).x < s.cp ∧ (t.pt pd).y < s.cp :=
  State.computing_pt_lt hinv h hf fun hp hb =>
    State.bind_setPt_reduced (State.domainCheck_bind_ok hb) fun _ hv =>
      ecadd_reduced hp (Point.reduced_canon hp _) (Point.reduced_canon hp _) hv

theorem execSmul_lt {pd ps : PtIdx} {rk : RegIdx} {s t : State} (hinv : s.Inv) (h : execSmul pd rk ps s = .next t)
    (hf : t.fault = false) : (t.pt pd).x < s.cp ∧ (t.pt pd).y < s.cp :=
  State.computing_pt_lt hinv h hf fun hp hb =>
    State.bind_setPt_reduced (State.domainCheck_bind_ok hb) fun _ hv =>
      smulLoop_reduced (r := .inf) hp (Point.reduced_canon hp _) trivial hv

theorem exec_pointOp_lt {i : Instr} {s t : State} (hinv : s.Inv) (h : exec i s = .next t) (hf : t.fault = false)
    (hm : i.mnemonic ∈ [.pneg, .padd, .pdbl, .smul, .encf, .decf]) {pd : PtIdx} (hd : i.pointDest = some pd) :
    (t.pt pd).x < s.cp ∧ (t.pt pd).y < s.cp := by
  cases i with
  | pneg pd ps => cases hd; exact execPneg_lt hinv h hf
  | padd pd ps1 ps2 => cases hd; exact execPadd_lt hinv h hf
  | pdbl pd ps => cases hd; exact execPdbl_lt hinv h hf
  | smul pd rk ps => cases hd; exact execSmul_lt hinv h hf
  | encf pd ps => cases hd; exact execEncf_lt hinv h hf
  | decf pd ps => cases hd; exact execDecf_lt hinv h hf
  | _ => simp [Instr.mnemonic] at hm

/-! ### Truth values and the count -/

theorem execPchk_le_one {rd : RegIdx} {ps : PtIdx} {s t : State} (h : execPchk rd ps s = .next t) (hf : t.fault = false) :
    t.reg rd ≤ 1 := by
  obtain ⟨-, hv⟩ := State.computing_reg h hf
  exact hv ▸ boolValue_le_one _

theorem execPtinf_le_one {rd : RegIdx} {ps : PtIdx} {s t : State} (h : execPtinf rd ps s = .next t) : t.reg rd ≤ 1 := by
  cases h
  rw [State.reg_setReg_self]
  exact boolValue_le_one _

/-- PCHK and PTINF write 0 or 1 (92_eei_decisions.md D39). -/
theorem exec_test_le_one {i : Instr} {s t : State} (h : exec i s = .next t) (hf : t.fault = false)
    (hm : i.mnemonic ∈ [.pchk, .ptinf]) {rd : RegIdx} (hd : i.scalarDest = some rd) : t.reg rd ≤ 1 := by
  cases i with
  | pchk rd ps => cases hd; exact execPchk_le_one h hf
  | ptinf rd ps => cases hd; exact execPtinf_le_one h
  | _ => simp [Instr.mnemonic] at hm

/-- PORD writes a count from 1 to `2^W - 1` (43_scalar_and_order.md R176). -/
theorem execPord_range {rd : RegIdx} {ps : PtIdx} {s t : State} (hW : 1 ≤ s.width) (h : execPord rd ps s = .next t)
    (hf : t.fault = false) : 1 ≤ t.reg rd ∧ t.reg rd < 2 ^ s.width := by
  obtain ⟨-, hb⟩ := State.computing_of_no_fault h hf
  obtain ⟨n, hn, hset⟩ := exceptBind_ok (State.domainCheck_bind_ok hb)
  cases hset
  exact (State.reg_setReg_self s rd n).symm ▸ orderScan_range hW hn

/-- Settles O25: without a fault a computing command made its writes, and each value it can write is in range. -/
theorem computedResultsAreReduced : Obligations.ComputedResultsAreReduced := by
  unfold Obligations.ComputedResultsAreReduced
  intro i s t hinv h hf
  refine ⟨fun hm rd hd => exec_fieldArith_lt hinv h hf hm hd, fun hm pd hd => exec_pointOp_lt hinv h hf hm hd,
    fun hm rd hd => exec_test_le_one h hf hm hd, fun hm rd hd => ?_⟩
  obtain ⟨⟨hW, -⟩, -⟩ := hinv
  cases i with
  | pord rd ps => cases hd; exact execPord_range (le_trans (by decide) hW) h hf
  | _ => cases hm

end Sys2Proof.Machine

namespace Sys2Proof.Machine

/-! ## What a command leaves unchanged: O22, O23, O24

Each lemma reads one fact off the inversion lemma `exec_effect`. -/

@[simp] theorem State.reg_commitFault (s : State) (e : Raise) (w : Word) (j : RegIdx) : (s.commitFault e w).reg j = s.reg j :=
  State.reg_congr (s.commitFault_r e w) j

@[simp] theorem State.pt_commitFault (s : State) (e : Raise) (w : Word) (j : PtIdx) : (s.commitFault e w).pt j = s.pt j :=
  State.pt_congr (s.commitFault_p e w) j

/-- CP, CA, CB and CL, with STATUS.CFG (10_state.md R26, R31 to R34). -/
def State.sameConfig (s t : State) : Prop := t.cfg = s.cfg ∧ t.cp = s.cp ∧ t.ca = s.ca ∧ t.cb = s.cb ∧ t.cl = s.cl

theorem State.sameConfig_refl (s : State) : s.sameConfig s := ⟨rfl, rfl, rfl, rfl, rfl⟩

theorem State.sameConfig_commitFault (s : State) (e : Raise) (w : Word) : s.sameConfig (s.commitFault e w) :=
  ⟨s.commitFault_cfg e w, s.commitFault_cp e w, s.commitFault_ca e w, s.commitFault_cb e w, s.commitFault_cl e w⟩

theorem Effect.sameConfig {i : Instr} {s t : State} (h : Effect i s t) (hi : i.mnemonic ≠ .cinit) : s.sameConfig t := by
  cases h with
  | raised e => exact s.sameConfig_commitFault e _
  | configured base c hb => subst hb; exact absurd rfl hi
  | _ => exact s.sameConfig_refl

/-- No command clears STATUS.CFG (10_state.md R26). -/
theorem Effect.cfg {i : Instr} {s t : State} (h : Effect i s t) (hc : s.cfg = true) : t.cfg = true := by
  cases h with
  | raised e => simpa using hc
  | configured => rfl
  | _ => exact hc

/-- No command changes the width, the channel, the receive state or the host's readiness (00_scope.md R5; 20_memory.md R51). -/
theorem Effect.channel {i : Instr} {s t : State} (h : Effect i s t) :
    t.width = s.width ∧ t.units = s.units ∧ t.rx = s.rx ∧ t.ready = s.ready := by
  cases h with
  | raised e => simp
  | _ => exact ⟨rfl, rfl, rfl, rfl⟩

theorem Effect.dvchk {i : Instr} {s t : State} (h : Effect i s t) (hi : i.mnemonic ≠ .wrcsr) : t.dvchk = s.dvchk := by
  cases h with
  | raised e => simp
  | wroteCtrl csr rs hw => subst hw; exact absurd rfl hi
  | _ => rfl

theorem Effect.sent_of_ne_str {i : Instr} {s t : State} (h : Effect i s t) (hi : i.mnemonic ≠ .str) : t.sent = s.sent := by
  cases h with
  | raised e => simp
  | sent rs hs => subst hs; exact absurd rfl hi
  | _ => rfl

/-- An STR that answers a next state has sent its register (45_interface_commands.md R201). -/
theorem exec_sent_of_str {i : Instr} {s t : State} (h : exec i s = .next t) (hi : i.mnemonic = .str) :
    ∃ v, t.sent = s.sent ++ [v] := by
  cases i with
  | str rs => obtain ⟨-, rfl⟩ := State.sendBeat_next h; exact ⟨s.reg rs, rfl⟩
  | _ => cases hi

/-- Settles O23: read off the seven effects a command can have. -/
theorem onlyWrcsrWritesCtrlOnlyStrSends : Obligations.OnlyWrcsrWritesCtrlOnlyStrSends := by
  unfold Obligations.OnlyWrcsrWritesCtrlOnlyStrSends
  intro i s t h
  have heff := exec_effect h
  exact ⟨heff.dvchk, heff.sent_of_ne_str, exec_sent_of_str h, heff.channel⟩

/-- A scalar register other than the row's destination is kept (10_state.md R21). -/
theorem Effect.reg {i : Instr} {s t : State} (h : Effect i s t) {j : RegIdx} (hj : i.scalarDest ≠ some j) : t.reg j = s.reg j := by
  cases h with
  | raised e => simp
  | wroteScalar rd v hd => exact State.reg_setReg_of_ne s (fun hjd => hj (by rw [hd, hjd])) v
  | _ => rfl

/-- A point register other than the row's destination is kept (10_state.md R23). -/
theorem Effect.pt {i : Instr} {s t : State} (h : Effect i s t) {j : PtIdx} (hj : i.pointDest ≠ some j) : t.pt j = s.pt j := by
  cases h with
  | raised e => simp
  | wrotePoint pd q hd => exact State.pt_setPtReg_of_ne s (fun hjd => hj (by rw [hd, hjd])) q
  | _ => rfl

/-- A fault that was not pending before has suppressed every write (60_exceptions.md R237). -/
theorem Effect.eq_commitFault {i : Instr} {s t : State} (h : Effect i s t) (hs : s.fault = false) (ht : t.fault = true) :
    ∃ e, t = s.commitFault e (encodeWord i) := by
  cases h with
  | raised e => exact ⟨e, rfl⟩
  | cleared => cases ht
  | _ => exact absurd (hs.symm.trans ht) (by decide)

/-- Only CLRF ends a pending fault (60_exceptions.md R241). -/
theorem Effect.fault_of_pending {i : Instr} {s t : State} (h : Effect i s t) (hi : i.mnemonic ≠ .clrf) (hs : s.fault = true) :
    t.fault = true := by
  cases h with
  | raised e => simp
  | cleared hc => subst hc; exact absurd rfl hi
  | _ => exact hs

/-- A fault that stays pending keeps its record, for the first fault wins (10_state.md R28, R30). -/
theorem Effect.record_of_pending {i : Instr} {s t : State} (h : Effect i s t) (hs : s.fault = true) (ht : t.fault = true) :
    t.fcode = s.fcode ∧ t.fcmd = s.fcmd := by
  cases h with
  | raised e => rw [State.commitFault_of_pending hs]; exact ⟨rfl, rfl⟩
  | cleared => cases ht
  | _ => exact ⟨rfl, rfl⟩

/-- A command that leaves no fault pending leaves the record as it was, or is CLRF (10_state.md R28, R30). -/
theorem Effect.record_of_clear {i : Instr} {s t : State} (h : Effect i s t) (ht : t.fault = false) :
    t.fcode = s.fcode ∧ t.fcmd = s.fcmd ∨ i = .clrf := by
  cases h with
  | raised e => simp at ht
  | cleared hc => exact .inr hc
  | _ => exact .inl ⟨rfl, rfl⟩

/-- Settles O24: read off the seven effects a command can have. -/
theorem commandsWriteOnlyTheirDestination : Obligations.CommandsWriteOnlyTheirDestination := by
  unfold Obligations.CommandsWriteOnlyTheirDestination
  intro i s t h
  have heff := exec_effect h
  refine ⟨fun j hj => heff.reg hj, fun j hj => heff.pt hj, fun hs ht => ?_, fun hi hs => ?_,
    fun _ ht => heff.record_of_clear ht⟩
  · obtain ⟨e, rfl⟩ := heff.eq_commitFault hs ht
    exact ⟨s.reg_commitFault e _, s.pt_commitFault e _⟩
  · have ht := heff.fault_of_pending hi hs
    exact ⟨ht, heff.record_of_pending hs ht⟩

/-! ## What a step can do: O7, O22, O12 -/

theorem frame_loneLdr (W : Nat) {w : Word} (h : Word.hasBeat w = true) : frame W [w.toNat] = .awaiting w := by
  have hw : w.toNat < 2 ^ 32 ∨ w.toNat < 2 ^ W := .inl w.isLt
  simp only [frame, wordOfUnit_toNat, if_pos hw, if_pos h]

/-- Settles O7: framing answers `awaiting`, whatever the word's other bits and the fault registers are. -/
theorem loneLdrWordAwaitsBeat : Obligations.LoneLdrWordAwaitsBeat := by
  unfold Obligations.LoneLdrWordAwaitsBeat
  intro s w hrx hop hu
  have hframe : frame s.width s.units = .awaiting w := by rw [hu]; exact frame_loneLdr _ ((hasBeat_iff w).mpr hop)
  simp only [step, fetch, hrx, hframe]

/-- `s` after a whole command has been taken, with the units `rest` left on the channel and the core idle. -/
def State.taken (s : State) (rest : List Nat) : State := { s with rx := .idle, units := rest }

/-- A unit that fits, its beat if it has one, and what follows: what follows fits too. -/
theorem unitsFit_rest {W u beat : Nat} {rest : List Nat}
    (h : unitsFit W false (u :: if Word.hasBeat (wordOfUnit u) then beat :: rest else rest) = true) : unitsFit W false rest = true := by
  cases hb : Word.hasBeat (wordOfUnit u) with
  | true => simp [unitsFit, hb] at h; exact h.2.2
  | false => simp [unitsFit, hb] at h; exact h.2

/-- What a step that is taken has done: it took a lone LDR word, or it issued one command whose units it took. -/
theorem step_next {s t : State} (h : step s = .next t) :
    (∃ w, Word.hasBeat w = true ∧ t = { s with rx := .awaitBeat w, units := [] })
      ∨ ∃ (w : Word) (beat : Nat) (rest : List Nat), beat < 2 ^ s.width
          ∧ (s.channelOk = true → unitsFit s.width false rest = true) ∧ issue w beat (s.taken rest) = .next t := by
  rcases step_cases s with ⟨-, -, hs⟩ | ⟨-, -, hs⟩ | ⟨-, hs⟩ | ⟨u, -, -, hb, hs⟩ | ⟨u, beat, rest, hrx, hu, -, hlt, hs⟩
    | ⟨w, beat, rest, hrx, hu, hlt, hs⟩
  · rw [hs] at h; cases h
  · rw [hs] at h; cases h
  · rw [hs] at h; cases h
  · rw [hs] at h; cases h; exact .inl ⟨_, hb, rfl⟩
  · refine .inr ⟨wordOfUnit u, beat, rest, hlt, fun hc => ?_, ?_⟩
    · rw [State.channelOk, hrx, hu] at hc
      exact unitsFit_rest hc
    · rw [← h, hs, State.taken, ← hrx]
  · refine .inr ⟨w, beat, rest, hlt, fun hc => ?_, hs.symm.trans h⟩
    have hne : (Receive.awaitBeat w != Receive.idle) = true := by simp
    rw [State.channelOk, hrx, hu, hne, unitsFit, Bool.and_eq_true] at hc
    exact hc.2

/-- What issuing has done, when it answers a next state: nothing, IllegalCommand's commit, or a command that may run. -/
theorem issue_next {w : Word} {beat : Nat} {s t : State} (h : issue w beat s = .next t) :
    (s.fault = true ∧ t = s)
      ∨ (∃ e, s.fault = false ∧ decode w beat = .error e ∧ t = s.commitFault .illegalCommand w)
      ∨ ∃ i, decode w beat = .ok i ∧ (s.fault = false ∨ i.mnemonic.runsFaulted = true) ∧ exec i s = .next t := by
  rcases issue_cases w beat s with ⟨hf, -, hi⟩ | ⟨e, hf, hd, hi⟩ | ⟨i, hd, hr, hi⟩
  · rw [hi] at h; cases h; exact .inl ⟨hf, rfl⟩
  · rw [hi] at h; cases h; exact .inr (.inl ⟨e, hf, hd, rfl⟩)
  · exact .inr (.inr ⟨i, hd, hr, hi.symm.trans h⟩)

theorem issue_cfg {w : Word} {beat : Nat} {s t : State} (h : issue w beat s = .next t) (hc : s.cfg = true) : t.cfg = true := by
  rcases issue_next h with ⟨-, rfl⟩ | ⟨e, -, -, rfl⟩ | ⟨i, -, -, hexec⟩
  · exact hc
  · simpa using hc
  · exact (exec_effect hexec).cfg hc

/-- Settles O22: read off the effects of a command, and for a step off what it can issue. -/
theorem onlyCinitWritesConfiguration : Obligations.OnlyCinitWritesConfiguration := by
  unfold Obligations.OnlyCinitWritesConfiguration
  refine ⟨fun i s t h hi => (exec_effect h).sameConfig hi, fun s t h hc => ?_⟩
  rcases step_next h with ⟨w, -, rfl⟩ | ⟨w, beat, rest, -, -, hissue⟩
  · exact hc
  · exact issue_cfg hissue hc

/-- What the faulted state keeps: the fault record, the point file, the configuration and CTRL (10_state.md R28, R30; 60_exceptions.md
R240). -/
def State.sameWhileFaulted (s t : State) : Prop :=
  t.fcode = s.fcode ∧ t.fcmd = s.fcmd ∧ (∀ i, t.pt i = s.pt i) ∧ t.cfg = s.cfg ∧ t.dvchk = s.dvchk ∧ t.cp = s.cp ∧ t.ca = s.ca
    ∧ t.cb = s.cb ∧ t.cl = s.cl

/-- A command that executes while a fault is pending writes no point, no configuration and no CTRL (30_encoding.md R86). -/
theorem writes_of_runsFaulted {i : Instr} (h : i.mnemonic.runsFaulted = true) :
    i.pointDest = none ∧ i.mnemonic ≠ .cinit ∧ i.mnemonic ≠ .wrcsr := by
  cases i with
  | str | rdcsr | clrf => exact ⟨rfl, nofun, nofun⟩
  | _ => cases h

/-- A command that executes in the faulted state and leaves it faulted has kept what that state keeps. -/
theorem Effect.sameWhileFaulted {i : Instr} {s t : State} (h : Effect i s t) (hr : i.mnemonic.runsFaulted = true) (hs : s.fault = true)
    (ht : t.fault = true) : s.sameWhileFaulted t := by
  obtain ⟨hpd, hcinit, hwrcsr⟩ := writes_of_runsFaulted hr
  obtain ⟨hcode, hcmd⟩ := h.record_of_pending hs ht
  obtain ⟨hcfg, hcp, hca, hcb, hcl⟩ := h.sameConfig hcinit
  exact ⟨hcode, hcmd, fun j => h.pt (by simp [hpd]), hcfg, h.dvchk hwrcsr, hcp, hca, hcb, hcl⟩

theorem issue_sameWhileFaulted {w : Word} {beat : Nat} {s t : State} (h : issue w beat s = .next t) (hs : s.fault = true)
    (ht : t.fault = true) : s.sameWhileFaulted t := by
  rcases issue_next h with ⟨-, rfl⟩ | ⟨e, hf, -, -⟩ | ⟨i, -, hf | hr, hexec⟩
  · exact ⟨rfl, rfl, fun _ => rfl, rfl, rfl, rfl, rfl, rfl, rfl⟩
  · exact absurd (hf.symm.trans hs) (by decide)
  · exact absurd (hf.symm.trans hs) (by decide)
  · exact (exec_effect hexec).sameWhileFaulted hr hs ht

/-- Settles O12: a faulted core issues only STR, RDCSR and CLRF, and CLRF ends the fault. -/
theorem faultedStepKeepsRecordAndConfiguration : Obligations.FaultedStepKeepsRecordAndConfiguration := by
  unfold Obligations.FaultedStepKeepsRecordAndConfiguration
  intro s t h hs ht
  rcases step_next h with ⟨w, -, rfl⟩ | ⟨w, beat, rest, -, -, hissue⟩
  · exact ⟨rfl, rfl, fun _ => rfl, rfl, rfl, rfl, rfl, rfl, rfl⟩
  · exact issue_sameWhileFaulted (s := s.taken rest) hissue hs ht

end Sys2Proof.Machine

namespace Sys2Proof

/-! ## A decoded command: its encoding is the word, and its operands are within their limits -/

/-- The command that a row stands for has the fields it was assembled from, those its row uses and those its row needs zero. -/
theorem Mnemonic.fields_assemble {m : Mnemonic} {f1 f2 f3 : Fin 16} (h : m.accepts f1 f2 f3) (beat : Nat) :
    (m.assemble f1 f2 f3 beat).f1 = f1 ∧ (m.assemble f1 f2 f3 beat).f2 = f2 ∧ (m.assemble f1 f2 f3 beat).f3 = f3 := by
  obtain ⟨h1, h2, h3, -⟩ := h
  cases m <;> simp_all [Mnemonic.assemble, Instr.f1, Instr.f2, Instr.f3, Mnemonic.usesF1, Mnemonic.usesF2, Mnemonic.usesF3]

/-- The encoding of a decoded command is the fetched word (log 10). -/
theorem encodeWord_of_decode {w : Word} {beat : Nat} {i : Instr} (h : decode w beat = .ok i) : encodeWord i = w := by
  obtain ⟨m, hop, hres, hacc, rfl⟩ := decode_ok h
  obtain ⟨h1, h2, h3⟩ := Mnemonic.fields_assemble hacc beat
  rw [encodeWord, Mnemonic.mnemonic_assemble, h1, h2, h3, hop, Word.pack_fields w hres]

/-- A decoded command is well formed, if the beat taken with its word has `W` bits (30_encoding.md R78 to R80). -/
theorem wellFormed_of_decode {W : Nat} {w : Word} {beat : Nat} {i : Instr} (h : decode w beat = .ok i) (hb : beat < 2 ^ W) :
    i.wellFormed W = true := by
  obtain ⟨m, -, -, ⟨-, -, -, hrd, hwr, hci⟩, rfl⟩ := decode_ok h
  cases m with
  | ldr => exact decide_eq_true hb
  | rdcsr => exact decide_eq_true (hrd rfl)
  | wrcsr => exact decide_eq_true (hwr rfl)
  | cinit => exact decide_eq_true (hci rfl)
  | _ => rfl

end Sys2Proof

namespace Sys2Proof.Machine

/-! ## The invariant's bounds -/

/-- A 32-bit value fits a scalar register (00_scope.md R5). -/
theorem State.Inv.word_lt {s : State} (hinv : s.Inv) {v : Nat} (hv : v < 2 ^ 32) : v < 2 ^ s.width := by
  obtain ⟨⟨hW, -⟩, -⟩ := hinv
  exact lt_of_lt_of_le hv (Nat.pow_le_pow_right (by decide) hW)

/-- The four configuration registers have `W` bits, configured or not (10_state.md R31 to R34). -/
theorem State.Inv.config_lt {s : State} (hinv : s.Inv) :
    s.cp < 2 ^ s.width ∧ s.ca < 2 ^ s.width ∧ s.cb < 2 ^ s.width ∧ s.cl < 2 ^ s.width := by
  obtain ⟨-, -, -, ⟨hconf, hzero⟩, -⟩ := hinv
  cases hc : s.cfg with
  | true =>
    obtain ⟨-, hp, ha, hb, -, hl, -⟩ := hconf hc
    exact ⟨hp, ha.trans hp, hb.trans hp, hl.trans hp⟩
  | false =>
    obtain ⟨hp, ha, hb, hl⟩ := hzero hc
    rw [hp, ha, hb, hl]
    have hpow : 0 < 2 ^ s.width := by positivity
    exact ⟨hpow, hpow, hpow, hpow⟩

/-- Every CSR reads as a `W`-bit value (10_state.md R24). -/
theorem State.Inv.csr_lt {s : State} (hinv : s.Inv) {n : CsrNum} {v : Nat} (h : s.csr n = some v) : v < 2 ^ s.width := by
  obtain ⟨hp, ha, hb, hl⟩ := hinv.config_lt
  unfold State.csr at h
  split at h
  all_goals cases h
  · exact hinv.word_lt s.statusWord.isLt
  · exact hinv.word_lt s.ctrlWord.isLt
  · exact hinv.word_lt s.fcmd.isLt
  · exact hp
  · exact ha
  · exact hb
  · exact hl
  · exact hinv.word_lt Config.idValue.isLt
  · exact hinv.word_lt s.widthWord.isLt

/-! ## What a command writes has `W` bits -/

theorem execRdcsr_lt {rd : RegIdx} {csr : CsrNum} {s t : State} (hinv : s.Inv) (h : execRdcsr rd csr s = .next t) :
    t.reg rd < 2 ^ s.width := by
  obtain ⟨-, hregs, -⟩ := id hinv
  rcases State.conclude_next h with hu | ⟨e, -, rfl⟩
  · split at hu
    · rename_i v hv
      cases hu
      exact (State.reg_setReg_self s rd v).symm ▸ hinv.csr_lt hv
    · cases hu
  · rw [State.reg_commitFault]; exact hregs rd

/-- Every scalar a command writes has `W` bits (10_state.md R20). A computing command is known to have made its write only where no
fault is pending after it. -/
theorem exec_scalar_lt {i : Instr} {s t : State} (hinv : s.Inv) (hwf : i.wellFormed s.width = true) (h : exec i s = .next t)
    (hf : t.fault = false ∨ i.mnemonic.runsFaulted = true) {rd : RegIdx} (hd : i.scalarDest = some rd) : t.reg rd < 2 ^ s.width := by
  have hone : 1 < 2 ^ s.width := hinv.word_lt (by decide)
  obtain ⟨hcp, -⟩ := hinv.config_lt
  obtain ⟨⟨hW, -⟩, hregs, hpts, -⟩ := id hinv
  cases i with
  | ldr rd beat => cases hd; cases h; rw [State.reg_setReg_self]; exact of_decide_eq_true hwf
  | movr rd rs => cases hd; cases h; rw [State.reg_setReg_self]; exact hregs rs
  | rdcsr rd csr => cases hd; exact execRdcsr_lt hinv h
  | pgx rd ps => cases hd; cases h; rw [State.reg_setReg_self]; exact (hpts ps).1
  | pgy rd ps => cases hd; cases h; rw [State.reg_setReg_self]; exact (hpts ps).2.1
  | ptinf rd ps => cases hd; exact (execPtinf_le_one h).trans_lt hone
  | pchk rd ps => cases hd; exact (execPchk_le_one h (hf.resolve_right nofun)).trans_lt hone
  | pord rd ps => cases hd; exact (execPord_range (le_trans (by decide) hW) h (hf.resolve_right nofun)).2
  | madd | msub | mmul | minv | mexp =>
    exact (exec_fieldArith_lt hinv h (hf.resolve_right nofun) (by simp [Instr.mnemonic]) hd).trans hcp
  | _ => cases hd

/-- A computing command that writes a point and leaves no fault has stored a point value (00_scope.md R13). -/
theorem exec_pointOp_setPt {i : Instr} {s t : State} (h : exec i s = .next t) (hf : t.fault = false)
    (hm : i.mnemonic ∈ [.pneg, .padd, .pdbl, .smul, .encf, .decf]) {pd : PtIdx} (hd : i.pointDest = some pd) :
    ∃ v : Point, t = s.setPt pd v := by
  cases i with
  | pneg | encf =>
    cases hd
    simp only [exec, execPneg, execEncf] at h
    obtain ⟨-, hb⟩ := State.computing_of_no_fault h hf
    exact ⟨_, (Except.ok.inj hb).symm⟩
  | decf =>
    cases hd
    simp only [exec, execDecf] at h
    obtain ⟨-, hb⟩ := State.computing_of_no_fault h hf
    split at hb
    · exact ⟨_, (Except.ok.inj hb).symm⟩
    · cases hb
  | padd =>
    cases hd
    simp only [exec, execPadd] at h
    obtain ⟨-, hb⟩ := State.computing_of_no_fault h hf
    obtain ⟨v, -, hset⟩ := exceptBind_ok (State.domainCheck_bind_ok (State.domainCheck_bind_ok hb))
    exact ⟨v, (Except.ok.inj hset).symm⟩
  | pdbl | smul =>
    cases hd
    simp only [exec, execPdbl, execSmul] at h
    obtain ⟨-, hb⟩ := State.computing_of_no_fault h hf
    obtain ⟨v, -, hset⟩ := exceptBind_ok (State.domainCheck_bind_ok hb)
    exact ⟨v, (Except.ok.inj hset).symm⟩
  | _ => simp [Instr.mnemonic] at hm

/-- A stored point value has the one form of `INF` (10_state.md R23). -/
theorem Point.toReg_ok {W : Nat} {v : Point} (hx : v.toReg.x < 2 ^ W) (hy : v.toReg.y < 2 ^ W) : v.toReg.ok W := by
  refine ⟨hx, hy, fun hinf => ?_⟩
  cases v with
  | inf => exact ⟨rfl, rfl⟩
  | aff x y => cases hinf

theorem exec_pointOp_ok {i : Instr} {s t : State} (hinv : s.Inv) (h : exec i s = .next t) (hf : t.fault = false)
    (hm : i.mnemonic ∈ [.pneg, .padd, .pdbl, .smul, .encf, .decf]) {pd : PtIdx} (hd : i.pointDest = some pd) :
    (t.pt pd).ok s.width := by
  obtain ⟨hcp, -⟩ := hinv.config_lt
  obtain ⟨hx, hy⟩ := exec_pointOp_lt hinv h hf hm hd
  obtain ⟨v, rfl⟩ := exec_pointOp_setPt h hf hm hd
  rw [State.setPt_eq, State.pt_setPtReg_self] at hx hy ⊢
  exact Point.toReg_ok (hx.trans hcp) (hy.trans hcp)

/-- Every point a command writes has `W`-bit coordinates and, if it is `INF`, the form `{1, 0, 0}` (10_state.md R22, R23). -/
theorem exec_point_ok {i : Instr} {s t : State} (hinv : s.Inv) (h : exec i s = .next t) (hf : t.fault = false) {pd : PtIdx}
    (hd : i.pointDest = some pd) : (t.pt pd).ok s.width := by
  obtain ⟨-, hregs, hpts, -⟩ := id hinv
  have hzero : 0 < 2 ^ s.width := hinv.word_lt (by decide)
  cases i with
  | mkp pd rx ry =>
    cases hd; cases h
    rw [State.setPt_eq, State.pt_setPtReg_self]
    exact Point.toReg_ok (v := .aff _ _) (hregs rx) (hregs ry)
  | mkinf pd =>
    cases hd; cases h
    rw [State.setPt_eq, State.pt_setPtReg_self]
    exact Point.toReg_ok (v := .inf) hzero hzero
  | movp pd ps => cases hd; cases h; rw [State.pt_setPtReg_self]; exact hpts ps
  | pneg | padd | pdbl | smul | encf | decf => exact exec_pointOp_ok hinv h hf (by simp [Instr.mnemonic]) hd
  | _ => cases hd

/-- The curve that CINIT computes meets the configuration invariant (10_state.md R40; 41_curve_config.md R121 to R124): `l` is the least
common multiple of two units, so it is a unit. -/
theorem construct_ok {pv an ad bn bd : Nat} {c : Curve} (h : construct pv an ad bn bd = .ok c) :
    c.p = pv ∧ 3 < c.p ∧ c.a < c.p ∧ c.b < c.p ∧ 1 ≤ c.l ∧ c.l < c.p ∧ Nat.gcd c.l c.p = 1 := by
  rcases construct_cases pv an ad bn bd with ⟨-, hc⟩ | ⟨-, -, hc⟩ | ⟨hp, had, hbd, iad, ibd, -, -, hc⟩
  · rw [hc] at h; cases h
  · rw [hc] at h; cases h
  rw [hc] at h
  cases h
  rw [(Nat.mod_modEq _ _).gcd_eq] at had hbd
  have hl : Nat.gcd (Nat.lcm ad bd % pv) pv = 1 := by
    rw [(Nat.mod_modEq _ _).gcd_eq]
    exact (Nat.Coprime.mul_left had hbd).coprime_dvd_left (Nat.lcm_dvd_mul ad bd)
  have hpos : Nat.lcm ad bd % pv ≠ 0 := fun hz => by
    rw [hz, Nat.gcd_zero_left] at hl
    omega
  exact ⟨rfl, hp, Nat.mod_lt _ (by omega), Nat.mod_lt _ (by omega), Nat.one_le_iff_ne_zero.mpr hpos, Nat.mod_lt _ (by omega), hl⟩

/-! ## Each state operation keeps the invariant -/

theorem State.Inv.setReg {s : State} (hinv : s.Inv) (i : RegIdx) {v : Nat} (hv : v < 2 ^ s.width) : (s.setReg i v).Inv := by
  obtain ⟨hwidth, hregs, hpts, hconf, hfault, hrx, hsent⟩ := hinv
  refine ⟨hwidth, fun j => ?_, hpts, hconf, hfault, hrx, hsent⟩
  rw [State.reg_setReg]
  split
  · exact hv
  · exact hregs j

theorem State.Inv.setPtReg {s : State} (hinv : s.Inv) (i : PtIdx) {q : PointReg} (hq : q.ok s.width) : (s.setPtReg i q).Inv := by
  obtain ⟨hwidth, hregs, hpts, hconf, hfault, hrx, hsent⟩ := hinv
  refine ⟨hwidth, hregs, fun j => ?_, hconf, hfault, hrx, hsent⟩
  rw [State.pt_setPtReg]
  split
  · exact hq
  · exact hpts j

theorem State.Inv.setCurve {s : State} (hinv : s.Inv) {c : Curve} (hp : 3 < c.p) (hW : c.p < 2 ^ s.width) (ha : c.a < c.p)
    (hb : c.b < c.p) (hl : 1 ≤ c.l) (hlp : c.l < c.p) (hg : Nat.gcd c.l c.p = 1) : (s.setCurve c).Inv := by
  obtain ⟨hwidth, hregs, hpts, -, hfault, hrx, hsent⟩ := hinv
  exact ⟨hwidth, hregs, hpts, ⟨fun _ => ⟨hp, hW, ha, hb, hl, hlp, hg⟩, nofun⟩, hfault, hrx, hsent⟩

theorem State.Inv.clearFault {s : State} (hinv : s.Inv) : s.clearFault.Inv := by
  obtain ⟨hwidth, hregs, hpts, hconf, -, hrx, hsent⟩ := hinv
  exact ⟨hwidth, hregs, hpts, hconf, ⟨nofun, fun _ => ⟨rfl, rfl⟩⟩, hrx, hsent⟩

/-- A fault commit keeps the invariant, if the pair it writes describes one fault (60_exceptions.md R237). -/
theorem State.Inv.commitFault {s : State} (hinv : s.Inv) {e : Raise} {w : Word} (he : recordOk e.code w = true) :
    (s.commitFault e w).Inv := by
  cases hf : s.fault with
  | true => rwa [State.commitFault_of_pending hf]
  | false =>
    rw [State.commitFault_of_clear hf]
    obtain ⟨hwidth, hregs, hpts, hconf, -, hrx, hsent⟩ := hinv
    exact ⟨hwidth, hregs, hpts, hconf, ⟨fun _ => he, nofun⟩, hrx, hsent⟩

theorem State.Inv.send {s : State} (hinv : s.Inv) {v : Nat} (hv : v < 2 ^ s.width) : { s with sent := s.sent ++ [v] }.Inv := by
  obtain ⟨hwidth, hregs, hpts, hconf, hfault, hrx, hsent⟩ := hinv
  refine ⟨hwidth, hregs, hpts, hconf, hfault, hrx, fun u hu => ?_⟩
  rcases List.mem_append.mp hu with hu | hu
  · exact hsent u hu
  · exact List.mem_singleton.mp hu ▸ hv

/-- The invariant says nothing of the channel but that the core waits for the beat of an LDR word only. -/
theorem State.Inv.receive {s : State} (hinv : s.Inv) {r : Receive} (hr : r.ok = true) (us : List Nat) :
    { s with rx := r, units := us }.Inv := by
  obtain ⟨hwidth, hregs, hpts, hconf, hfault, -, hsent⟩ := hinv
  exact ⟨hwidth, hregs, hpts, hconf, hfault, hr, hsent⟩

/-! ## Commands and steps keep the invariant: O19 -/

/-- The record of a fault that a decoded command may raise (60_exceptions.md R230, R237). -/
theorem recordOk_of_mayRaise {W : Nat} {w : Word} {beat : Nat} {i : Instr} {e : Raise} (hd : decode w beat = .ok i) (hb : beat < 2 ^ W)
    (he : mayRaise i W e) : recordOk e.code (encodeWord i) = true := by
  rw [encodeWord_of_decode hd]
  rcases he with he | ⟨-, hill⟩
  · exact recordOk_of_raisedBy hd he
  · rw [wellFormed_of_decode hd hb] at hill; cases hill

/-- A decoded command that may run keeps the invariant: one case for each effect it can have. -/
theorem exec_keeps_inv {w : Word} {beat : Nat} {i : Instr} {s t : State} (hinv : s.Inv) (hd : decode w beat = .ok i)
    (hb : beat < 2 ^ s.width) (hrun : s.fault = false ∨ i.mnemonic.runsFaulted = true) (h : exec i s = .next t) : t.Inv := by
  obtain ⟨-, hregs, -⟩ := id hinv
  have heff := exec_effect h
  cases heff with
  | raised e he => exact hinv.commitFault (recordOk_of_mayRaise hd hb he)
  | wroteScalar rd v hdest =>
    have hv := exec_scalar_lt hinv (wellFormed_of_decode hd hb) h hrun hdest
    rw [State.reg_setReg_self] at hv
    exact hinv.setReg rd hv
  | wrotePoint pd q hdest =>
    have hf : s.fault = false := hrun.resolve_right fun hr => by simp [(writes_of_runsFaulted hr).1] at hdest
    have hq := exec_point_ok hinv h hf hdest
    rw [State.pt_setPtReg_self] at hq
    exact hinv.setPtReg pd hq
  | sent rs => exact hinv.send (hregs rs)
  | wroteCtrl => exact hinv
  | cleared => exact hinv.clearFault
  | configured base c hi hc =>
    obtain ⟨hp, hp3, ha, hb, hl, hlp, hg⟩ := construct_ok hc
    exact hinv.setCurve hp3 (hp ▸ hregs base) ha hb hl hlp hg

theorem issue_keeps_inv {w : Word} {beat : Nat} {s t : State} (hinv : s.Inv) (hb : beat < 2 ^ s.width)
    (h : issue w beat s = .next t) : t.Inv := by
  rcases issue_next h with ⟨-, rfl⟩ | ⟨e, -, hd, rfl⟩ | ⟨i, hd, hrun, hexec⟩
  · exact hinv
  · exact hinv.commitFault (recordOk_of_error hd)
  · exact exec_keeps_inv hinv hd hb hrun hexec

theorem step_keeps_inv {s t : State} (hinv : s.Inv) (h : step s = .next t) : t.Inv := by
  rcases step_next h with ⟨w, hw, rfl⟩ | ⟨w, beat, rest, hb, -, hissue⟩
  · exact hinv.receive (r := .awaitBeat w) hw []
  · exact issue_keeps_inv (s := s.taken rest) (hinv.receive rfl rest) hb hissue

/-- Settles O19: a step takes units and issues one command, and each of its effects keeps the invariant. -/
theorem stepKeepsInvariant : Obligations.StepKeepsInvariant := by
  unfold Obligations.StepKeepsInvariant
  exact fun _ _ => step_keeps_inv

/-! ## Reachable states and the channel: O21 -/

/-- The reset state meets the invariant, whatever the width (70_reset_and_hazards.md R260). -/
theorem State.resetAt_inv {W : Nat} (low : Config.minWidth ≤ W) (high : W < 2 ^ 32) : (State.resetAt W).Inv := by
  refine ⟨⟨low, high⟩, fun i => ?_, fun i => ?_, ⟨nofun, fun _ => ⟨rfl, rfl, rfl, rfl⟩⟩, ⟨nofun, fun _ => ⟨rfl, rfl⟩⟩, rfl, nofun⟩
  · simp [State.reg, State.resetAt]
  · simp [State.pt, State.resetAt]

/-- No move of the host breaks the invariant (20_memory.md R60): a reset keeps the width and the beats sent, the others touch neither. -/
theorem State.Inv.onHost {s : State} (hinv : s.Inv) (e : HostEvent) : (s.onHost e).Inv := by
  cases e with
  | send us => exact hinv
  | accept b => exact hinv
  | reset taken =>
    obtain ⟨⟨low, high⟩, -, -, -, -, -, hsent⟩ := hinv
    obtain ⟨hwidth, hregs, hpts, hconf, hfault, hrx, -⟩ := State.resetAt_inv low high
    exact ⟨hwidth, hregs, hpts, hconf, hfault, hrx, hsent⟩

theorem Reachable.inv {s : State} (h : Reachable s) : s.Inv := by
  induction h with
  | reset W low high => exact State.resetAt_inv low high
  | step _ h ih => exact step_keeps_inv ih h
  | host _ e ih => exact ih.onHost e

/-- Issuing a command changes neither the width nor the channel. -/
theorem issue_channel {w : Word} {beat : Nat} {s t : State} (h : issue w beat s = .next t) :
    t.width = s.width ∧ t.units = s.units ∧ t.rx = s.rx := by
  rcases issue_next h with ⟨-, rfl⟩ | ⟨e, -, -, rfl⟩ | ⟨i, -, -, hexec⟩
  · exact ⟨rfl, rfl, rfl⟩
  · simp
  · obtain ⟨hwidth, hunits, hrx, -⟩ := (exec_effect hexec).channel
    exact ⟨hwidth, hunits, hrx⟩

theorem step_keeps_channelOk {s t : State} (hs : s.channelOk = true) (h : step s = .next t) : t.channelOk = true := by
  rcases step_next h with ⟨w, -, rfl⟩ | ⟨w, beat, rest, -, hfit, hissue⟩
  · simp [State.channelOk, unitsFit]
  · obtain ⟨hwidth, hunits, hrx⟩ := issue_channel hissue
    rw [State.channelOk, hwidth, hunits, hrx]
    exact hfit hs

/-- Settles O21: by induction along the way a state is reached, and by what a step takes from the channel. -/
theorem reachableStatesMeetInvariant : Obligations.ReachableStatesMeetInvariant := by
  unfold Obligations.ReachableStatesMeetInvariant
  exact ⟨fun _ => Reachable.inv, fun _ _ => step_keeps_channelOk⟩

end Sys2Proof.Machine

namespace Sys2Proof.Machine

/-! ## The host's moves: O20 -/

/-- Settles O20, by the case split over the three moves in `State.Inv.onHost`. -/
theorem hostMovesKeepInvariant : Obligations.HostMovesKeepInvariant := by
  unfold Obligations.HostMovesKeepInvariant
  exact fun _ e hinv => hinv.onHost e

/-! ## When a command completes, and when a step waits: O8 -/

/-- A concluded command never waits and is never refused. -/
theorem State.conclude_completes (s : State) (w : Word) (r : Except Raise State) : ∃ t, s.conclude w r = .next t := by
  cases r <;> exact ⟨_, rfl⟩

/-- STR waits while the host does not accept its beat (20_memory.md R62(b)). -/
theorem exec_str_waits {s : State} (hr : s.ready = false) (rs : RegIdx) : exec (.str rs) s = .fault .waitAccept :=
  if_neg (by simp [hr])

/-- Every command answers a next state, but for an STR whose beat the host does not accept (70_reset_and_hazards.md R266). -/
theorem exec_completes_or_waits (i : Instr) (s : State) :
    (∃ t, exec i s = .next t) ∨ ∃ rs, i = .str rs ∧ s.ready = false ∧ exec i s = .fault .waitAccept := by
  cases i with
  | str rs =>
    cases hr : s.ready with
    | true => exact .inl ⟨_, if_pos hr⟩
    | false => exact .inr ⟨rs, rfl, rfl, exec_str_waits hr rs⟩
  | ldr | movr | clrf | mkp | mkinf | movp | pgx | pgy | ptinf => exact .inl ⟨_, rfl⟩
  | rdcsr | wrcsr | cinit => exact .inl (s.conclude_completes _ _)
  | madd | msub | mmul | minv | mexp | pchk | pneg | padd | pdbl | smul | pord | encf | decf =>
    simp only [exec]
    exact .inl (s.computing_completes _ _)

/-- The word of an STR, from its row of the opcode map (30_encoding.md R75). -/
theorem encodeWord_str (rs : RegIdx) : encodeWord (.str rs) = commandWord 0x08000000 0 rs 0 := by
  have hop : (Instr.str rs).mnemonic.opcode = 0x02 := rfl
  exact encodeWord_eq_commandWord (i := .str rs) (by rw [hop])

/-- No STR word has a beat (30_encoding.md R77). -/
theorem hasBeat_encodeWord_str (rs : RegIdx) : Word.hasBeat (encodeWord (.str rs)) = false := by
  rw [Word.hasBeat, encodeWord, Word.op_pack (Mnemonic.opcode_lt _)]
  rfl

theorem decode_encodeWord_str (rs : RegIdx) (beat : Nat) : decode (encodeWord (.str rs)) beat = .ok (.str rs) :=
  decode_pack (m := .str) ⟨fun _ => rfl, nofun, fun _ => rfl, nofun, nofun, nofun⟩ beat

/-- Issuing a word completes, or the word is an STR's and the host does not accept its beat. -/
theorem issue_completes_or_waits (w : Word) (beat : Nat) (s : State) :
    (∃ t, issue w beat s = .next t)
      ∨ (s.ready = false ∧ (∃ rs, w = encodeWord (.str rs)) ∧ issue w beat s = .fault .waitAccept) := by
  rcases issue_cases w beat s with ⟨-, -, hissue⟩ | ⟨e, -, -, hissue⟩ | ⟨i, hd, -, hissue⟩
  · exact .inl ⟨_, hissue⟩
  · exact .inl ⟨_, hissue⟩
  · rcases exec_completes_or_waits i s with ⟨t, ht⟩ | ⟨rs, rfl, hr, hw⟩
    · exact .inl ⟨t, hissue.trans ht⟩
    · exact .inr ⟨hr, ⟨rs, (encodeWord_of_decode hd).symm⟩, hissue.trans hw⟩

/-- Issuing completes when the host accepts beats. -/
theorem issue_completes_of_ready {s : State} (hr : s.ready = true) (w : Word) (beat : Nat) : ∃ t, issue w beat s = .next t :=
  (issue_completes_or_waits w beat s).resolve_right fun ⟨hn, _⟩ => by simp [hr] at hn

/-- Issuing a word that has a beat completes: such a word is no STR. -/
theorem issue_completes_of_hasBeat {w : Word} (hb : Word.hasBeat w = true) (beat : Nat) (s : State) : ∃ t, issue w beat s = .next t :=
  (issue_completes_or_waits w beat s).resolve_right fun ⟨_, ⟨rs, hw⟩, _⟩ => by simp [hw, hasBeat_encodeWord_str] at hb

/-- Issuing a word without a beat does not depend on the beat offered to it. -/
theorem issue_beat_irrelevant {w : Word} (h : Word.hasBeat w = false) (b b' : Nat) (s : State) : issue w b s = issue w b' s := by
  simp only [issue, decode_beat_irrelevant h b b']

/-- A step of an idle core on any unit that a host may send, with its beat if its word has one: the word is issued. -/
theorem step_of_unit {s : State} {u beat : Nat} {rest : List Nat} (hrx : s.rx = .idle)
    (hu : s.units = u :: if Word.hasBeat (wordOfUnit u) then beat :: rest else rest) (hfit : u < 2 ^ 32 ∨ u < 2 ^ s.width)
    (hb : beat < 2 ^ s.width) : step s = issue (wordOfUnit u) beat { s with units := rest } := by
  rw [step_of_frame hrx (by rw [hu]; exact frame_cons beat rest hfit hb)]
  cases h : Word.hasBeat (wordOfUnit u) with
  | true => rw [if_pos rfl]
  | false => exact issue_beat_irrelevant h _ _ _

theorem step_waitCommand {s : State} (hrx : s.rx = .idle) (hu : s.units = []) : step s = .fault .waitCommand := by
  simp only [step, fetch, hrx, hu, frame]

theorem step_waitBeat {s : State} {w : Word} (hrx : s.rx = .awaitBeat w) (hu : s.units = []) : step s = .fault .waitBeat := by
  simp only [step, fetch, hrx, hu]

/-- An idle core with an STR word at the front waits while the host does not accept beats, faulted or not (30_encoding.md R86). -/
theorem step_waitAccept {s : State} {rs : RegIdx} {rest : List Nat} (hrx : s.rx = .idle) (hr : s.ready = false)
    (hu : s.units = (encodeWord (.str rs)).toNat :: rest) : step s = .fault .waitAccept := by
  have hstep := step_of_unit (s := s) (u := (encodeWord (.str rs)).toNat) (beat := 0) (rest := rest) hrx
    (by simpa [hasBeat_encodeWord_str] using hu) (.inl (encodeWord (.str rs)).isLt) (by positivity)
  rw [hstep, wordOfUnit_toNat, issue_of_ok (decode_encodeWord_str rs 0) (.inr rfl)]
  exact exec_str_waits (s := { s with units := rest }) hr rs

/-- What a step can be on a lawful channel: taken, one of the two waits on an empty channel, or the wait of an STR. -/
theorem step_completes_or_waits {s : State} (hrx : s.rx.ok = true) (hc : s.channelOk = true) :
    (∃ t, step s = .next t) ∨ (s.units = [] ∧ (step s = .fault .waitCommand ∨ step s = .fault .waitBeat))
      ∨ (s.ready = false ∧ ∃ rs : RegIdx, s.units.head?.map wordOfUnit = some (encodeWord (.str rs)) ∧ step s = .fault .waitAccept) := by
  rcases step_cases s with ⟨-, hu, hs⟩ | ⟨-, hu, hs⟩ | ⟨hn, -⟩ | ⟨u, -, -, -, hs⟩ | ⟨u, beat, rest, -, hu, -, -, hs⟩
    | ⟨w, beat, rest, hw, -, -, hs⟩
  · exact .inr (.inl ⟨hu, .inl hs⟩)
  · exact .inr (.inl ⟨hu, .inr hs⟩)
  · rw [hn] at hc; cases hc
  · exact .inl ⟨_, hs⟩
  · rcases issue_completes_or_waits (wordOfUnit u) beat { s with units := rest } with ⟨t, ht⟩ | ⟨hr, ⟨rs, hw⟩, hi⟩
    · exact .inl ⟨t, hs.trans ht⟩
    · exact .inr (.inr ⟨hr, rs, by rw [hu, List.head?_cons, Option.map_some, hw], hs.trans hi⟩)
  · rw [hw] at hrx
    obtain ⟨t, ht⟩ := issue_completes_of_hasBeat hrx beat { s with rx := .idle, units := rest }
    exact .inl ⟨t, hs.trans ht⟩

/-- Settles O8: the three waits one by one, then the cases of a step, of which only an STR's issue can wait. -/
theorem stepStopsOnlyToWait : Obligations.StepStopsOnlyToWait := by
  unfold Obligations.StepStopsOnlyToWait
  simp only [← encodeWord_str]
  exact ⟨fun _ => step_waitCommand, fun _ _ => step_waitBeat, fun _ _ _ => step_waitAccept, fun _ => step_completes_or_waits⟩

/-! ## A run with an accepting host: O27 -/

/-- Issuing a command does not change whether the host accepts beats. -/
theorem issue_ready {w : Word} {beat : Nat} {s t : State} (h : issue w beat s = .next t) : t.ready = s.ready := by
  rcases issue_next h with ⟨-, rfl⟩ | ⟨e, -, -, rfl⟩ | ⟨i, -, -, hexec⟩
  · rfl
  · simp
  · obtain ⟨-, -, -, hready⟩ := (exec_effect hexec).channel
    exact hready

/-- With an accepting host and units on a lawful channel, a step is taken, takes at least one unit, and the host still accepts. -/
theorem step_takes_unit {s : State} (hr : s.ready = true) (hc : s.channelOk = true) (hne : s.units ≠ []) :
    ∃ t, step s = .next t ∧ t.ready = true ∧ t.units.length < s.units.length := by
  rcases step_cases s with ⟨-, hu, -⟩ | ⟨-, hu, -⟩ | ⟨hn, -⟩ | ⟨u, -, hu, -, hs⟩ | ⟨u, beat, rest, -, hu, -, -, hs⟩
    | ⟨w, beat, rest, -, hu, -, hs⟩
  · exact absurd hu hne
  · exact absurd hu hne
  · rw [hn] at hc; cases hc
  · exact ⟨_, hs, hr, by simp [hu]⟩
  · obtain ⟨t, ht⟩ := issue_completes_of_ready (s := { s with units := rest }) hr (wordOfUnit u) beat
    obtain ⟨-, hunits, -⟩ := issue_channel ht
    refine ⟨t, hs.trans ht, (issue_ready ht).trans hr, ?_⟩
    rw [hunits, hu]
    split <;> simp
  · obtain ⟨t, ht⟩ := issue_completes_of_ready (s := { s with rx := .idle, units := rest }) hr w beat
    obtain ⟨-, hunits, -⟩ := issue_channel ht
    exact ⟨t, hs.trans ht, (issue_ready ht).trans hr, by rw [hunits, hu]; simp⟩

/-- With an accepting host, a run of at most `n` steps empties a lawful channel of at most `n` units. -/
theorem run_empties_channel (n : Nat) {s : State} (hr : s.ready = true) (hc : s.channelOk = true) (hn : s.units.length ≤ n) :
    ∃ (k : Nat) (t : State), k ≤ n ∧ Host.Core.run Sys2Proof.core k s = .next t ∧ t.units = [] := by
  induction n generalizing s with
  | zero => exact ⟨0, s, le_rfl, rfl, List.length_eq_zero_iff.mp (Nat.le_zero.mp hn)⟩
  | succ n ih =>
    by_cases hu : s.units = []
    · exact ⟨0, s, Nat.zero_le _, rfl, hu⟩
    · obtain ⟨t, hs, htr, hlt⟩ := step_takes_unit hr hc hu
      obtain ⟨k, v, hk, hrun, hv⟩ := ih htr (step_keeps_channelOk hc hs) (by omega)
      exact ⟨k + 1, v, by omega, (run_of_next k hs).trans hrun, hv⟩

/-- Settles O27: by induction on the number of units, each step taking at least one. -/
theorem runTakesEveryUnit : Obligations.RunTakesEveryUnit := by
  unfold Obligations.RunTakesEveryUnit
  intro s hr hc
  obtain ⟨k, t, hk, hrun, hu⟩ := run_empties_channel s.units.length hr hc le_rfl
  refine ⟨k, t, hk, hrun, hu, fun hrx => step_waitCommand hrx hu, fun hrx => ?_⟩
  cases hw : t.rx with
  | idle => exact absurd hw hrx
  | awaitBeat w => exact step_waitBeat hw hu

/-! ## A beat with its word or later: O29 -/

/-- Settles O29: a late beat is issued with the word that waits for it, as a beat that comes with the word is. -/
theorem beatMayArriveLater : Obligations.BeatMayArriveLater := by
  unfold Obligations.BeatMayArriveLater
  intro s w beat hrx hu hop hb
  have hbeat : Word.hasBeat w = true := (hasBeat_iff w).mpr hop
  have htogether : step (s.onHost (.send [beat])) = issue w beat { s with units := [] } := by
    have h := step_of_unit (s := s.onHost (.send [beat])) (u := w.toNat) (beat := beat) (rest := []) hrx
      (by simp [State.onHost, hu, hbeat]) (.inl w.isLt) hb
    rwa [wordOfUnit_toNat] at h
  refine ⟨_, loneLdrWordAwaitsBeat s w hrx hop hu, ?_, ?_⟩
  · rw [htogether, hrx]
    exact step_of_beat (beat := beat) (rest := []) rfl rfl hb
  · rw [htogether]
    exact issue_completes_of_hasBeat hbeat beat _

/-! ## Units behind the channel: O28 -/

/-- `s` with the units `us` on its channel and nothing else changed. -/
def State.withUnits (s : State) (us : List Nat) : State := { s with units := us }

@[simp] theorem State.withUnits_cp (s : State) (us : List Nat) : (s.withUnits us).cp = s.cp := rfl
@[simp] theorem State.reg_withUnits (s : State) (us : List Nat) (i : RegIdx) : (s.withUnits us).reg i = s.reg i := rfl
@[simp] theorem State.csr_withUnits (s : State) (us : List Nat) (n : CsrNum) : (s.withUnits us).csr n = s.csr n := rfl
@[simp] theorem State.curve_withUnits (s : State) (us : List Nat) : (s.withUnits us).curve = s.curve := rfl
@[simp] theorem State.canonPt_withUnits (s : State) (us : List Nat) (i : PtIdx) : (s.withUnits us).canonPt i = s.canonPt i := rfl

/-- An outcome with the units `us` on the channel of its next state, if it has one. -/
def outcomeWithUnits (us : List Nat) : Host.Outcome State Fault Refusal → Host.Outcome State Fault Refusal
  | .next t => .next (t.withUnits us)
  | .fault f => .fault f
  | .refused r => .refused r

theorem State.commitFault_withUnits (s : State) (us : List Nat) (e : Raise) (w : Word) :
    (s.withUnits us).commitFault e w = (s.commitFault e w).withUnits us := by
  cases hf : s.fault with
  | true => rw [State.commitFault_of_pending hf, State.commitFault_of_pending (s := s.withUnits us) hf]
  | false => rw [State.commitFault_of_clear hf, State.commitFault_of_clear (s := s.withUnits us) hf]; rfl

theorem State.conclude_withUnits {s : State} {us : List Nat} {w : Word} {r r' : Except Raise State}
    (h : r' = r.map (·.withUnits us)) : (s.withUnits us).conclude w r' = outcomeWithUnits us (s.conclude w r) := by
  subst h
  cases r with
  | ok t => rfl
  | error e => exact congrArg Host.Outcome.next (s.commitFault_withUnits us e w)

/-- A computing command does not look at the channel, if its body does not. -/
theorem State.computing_withUnits {s : State} {us : List Nat} {w : Word} {body : State → Except Raise State}
    (h : body (s.withUnits us) = (body s).map (·.withUnits us)) :
    (s.withUnits us).computing w body = outcomeWithUnits us (s.computing w body) := by
  cases hc : s.cfg with
  | true => rw [State.computing_of_cfg hc, State.computing_of_cfg (s := s.withUnits us) hc, State.conclude_withUnits h]
  | false =>
    rw [State.computing_of_no_cfg hc, State.computing_of_no_cfg (s := s.withUnits us) hc, State.commitFault_withUnits]
    rfl

/-- STR does not look at the channel of commands. -/
theorem State.sendBeat_withUnits (s : State) (us : List Nat) (v : Nat) :
    (s.withUnits us).sendBeat v = outcomeWithUnits us (s.sendBeat v) := by
  cases hr : s.ready <;> simp [State.sendBeat, State.withUnits, outcomeWithUnits, hr]

/-- A function over the value of a computation acts on what its last part answers. -/
theorem exceptMap_bind {ε α β γ : Type} (x : Except ε α) (f : α → Except ε β) (g : β → γ) :
    (x >>= f).map g = x >>= fun a => (f a).map g := by cases x <;> rfl

/-- No command looks at the channel: with other units there, it does the same and leaves those units (20_memory.md R57). -/
theorem exec_withUnits (i : Instr) (s : State) (us : List Nat) : exec i (s.withUnits us) = outcomeWithUnits us (exec i s) := by
  cases i with
  | ldr | movr | clrf | mkp | mkinf | movp | pgx | pgy | ptinf => rfl
  | str rs => exact s.sendBeat_withUnits us (s.reg rs)
  | rdcsr rd csr =>
    refine State.conclude_withUnits (s := s) ?_
    rw [State.csr_withUnits]
    cases s.csr csr <;> rfl
  | wrcsr csr rs => exact State.conclude_withUnits (s := s) (by split <;> rfl)
  | cinit base =>
    refine State.conclude_withUnits (s := s) ?_
    split
    · rfl
    · simp only [State.reg_withUnits]
      cases construct (s.reg base) (s.reg (base + 1)) (s.reg (base + 2)) (s.reg (base + 3)) (s.reg (base + 4)) <;> rfl
  | madd | msub | mmul | mexp | pchk | pneg | encf =>
    simp only [exec]
    exact State.computing_withUnits (s := s) rfl
  | minv rd rs1 =>
    simp only [exec]
    refine State.computing_withUnits (s := s) ?_
    simp only [State.withUnits_cp, State.reg_withUnits]
    cases invP s.cp (s.reg rs1) <;> rfl
  | decf pd ps =>
    simp only [exec]
    refine State.computing_withUnits (s := s) ?_
    simp only [State.curve_withUnits, State.canonPt_withUnits]
    cases fromFractional s.curve (s.canonPt ps) <;> rfl
  | padd | pdbl | smul | pord =>
    simp only [exec]
    refine State.computing_withUnits (s := s) ?_
    simp only [exceptMap_bind]
    rfl

/-- Issuing does not look at the channel: the command was taken from it before. -/
theorem issue_withUnits (w : Word) (beat : Nat) (s : State) (us : List Nat) :
    issue w beat (s.withUnits us) = outcomeWithUnits us (issue w beat s) := by
  rcases issue_cases w beat s with ⟨hf, hn, hi⟩ | ⟨e, hf, hd, hi⟩ | ⟨i, hd, hr, hi⟩
  · rw [hi, issue_discards (s := s.withUnits us) hf hn]; rfl
  · rw [hi, issue_of_error (s := s.withUnits us) hd hf, State.commitFault_withUnits]; rfl
  · rw [hi, issue_of_ok (s := s.withUnits us) hd hr, exec_withUnits]

/-- Issuing answers the same with more units behind the channel, and leaves them there. -/
theorem issue_append {w : Word} {beat : Nat} {s t : State} (h : issue w beat s = .next t) (later : List Nat) :
    issue w beat { s with units := s.units ++ later } = .next { t with units := t.units ++ later } := by
  obtain ⟨-, hunits, -⟩ := issue_channel h
  have hi := issue_withUnits w beat s (s.units ++ later)
  rw [h] at hi
  rw [hunits]
  exact hi

/-- A step answers the same with more units behind the channel and leaves them there, unless it took a lone LDR word. -/
theorem step_append {s t : State} (h : step s = .next t) (later : List Nat) :
    step { s with units := s.units ++ later } = .next { t with units := t.units ++ later }
      ∨ (∃ w, t.rx = .awaitBeat w) ∧ t.units = [] := by
  rcases step_cases s with ⟨-, -, hs⟩ | ⟨-, -, hs⟩ | ⟨-, hs⟩ | ⟨u, -, -, -, hs⟩ | ⟨u, beat, rest, hrx, hu, hfit, hlt, hs⟩
    | ⟨w, beat, rest, hrx, hu, hlt, hs⟩
  · rw [hs] at h; cases h
  · rw [hs] at h; cases h
  · rw [hs] at h; cases h
  · rw [hs] at h; cases h; exact .inr ⟨⟨_, rfl⟩, rfl⟩
  · refine .inl ?_
    rw [step_of_unit (s := { s with units := s.units ++ later }) (rest := rest ++ later) hrx (by rw [hu]; split <;> rfl) hfit hlt]
    exact issue_append (s := { s with units := rest }) (hs.symm.trans h) later
  · refine .inl ?_
    rw [step_of_beat (s := { s with units := s.units ++ later }) (rest := rest ++ later) hrx (by rw [hu]; rfl) hlt]
    exact issue_append (s := { s with rx := .idle, units := rest }) (hs.symm.trans h) later

/-- A run from a core that awaits a beat on an empty channel has no step. -/
theorem run_of_waitBeat {k : Nat} {s t : State} {w : Word} (hrx : s.rx = .awaitBeat w) (hu : s.units = [])
    (h : Host.Core.run Sys2Proof.core k s = .next t) : t = s := by
  cases k with
  | zero => cases h; rfl
  | succ k => rw [run_of_fault k (step_waitBeat hrx hu)] at h; cases h

/-- Settles O28: by induction on the steps. A lone LDR word can only be the last unit a run takes, and such a run does not end idle. -/
theorem runIgnoresLaterUnits : Obligations.RunIgnoresLaterUnits := by
  unfold Obligations.RunIgnoresLaterUnits
  intro k
  induction k with
  | zero => intro s t later h _; cases h; rfl
  | succ k ih =>
    intro s t later h hidle
    cases hs : step s with
    | fault f => rw [run_of_fault k hs] at h; cases h
    | refused r => simp [Host.Core.run, Sys2Proof.core, hs] at h
    | next s' =>
      rw [run_of_next k hs] at h
      rcases step_append hs later with happ | ⟨⟨w, hrx⟩, hu⟩
      · rw [run_of_next k happ]
        exact ih s' t later h hidle
      · rw [run_of_waitBeat hrx hu h, hrx] at hidle
        cases hidle

end Sys2Proof.Machine

namespace Sys2Proof

open Machine

/-! ## The words of a row: O3, O5 -/

/-- When a word decodes: its opcode is a row's, `res` is 0 and the row accepts its fields (30_encoding.md R82). -/
theorem decode_ok_iff (w : Word) (beat : Nat) :
    (∃ i, decode w beat = .ok i)
      ↔ ∃ m : Mnemonic, m.opcode = Word.op w ∧ Word.res w = 0 ∧ m.accepts (Word.f1 w) (Word.f2 w) (Word.f3 w) := by
  constructor
  · rintro ⟨i, h⟩
    obtain ⟨m, hop, hres, hacc, -⟩ := decode_ok h
    exact ⟨m, hop, hres, hacc⟩
  · rintro ⟨m, hop, hres, hacc⟩
    exact ⟨_, decode_of_accepts hop hres hacc beat⟩

/-- Two words with the same five fields are the same word (30_encoding.md R71). -/
theorem Word.eq_iff_field (v w : Word) :
    v = w ↔ Word.field v 26 6 = Word.field w 26 6 ∧ Word.field v 0 14 = Word.field w 0 14 ∧ Word.field v 22 4 = Word.field w 22 4
      ∧ Word.field v 18 4 = Word.field w 18 4 ∧ Word.field v 14 4 = Word.field w 14 4 := by
  constructor
  · rintro rfl
    exact ⟨rfl, rfl, rfl, rfl, rfl⟩
  · intro h
    have hv := v.isLt
    have hw := w.isLt
    apply BitVec.eq_of_toNat_eq
    simp only [Word.field, Nat.shiftRight_eq_div_pow] at h
    omega

/-- A field of a masked word is the field, masked by the mask's field. -/
theorem Word.field_and (v w : Word) (lo n : Nat) : Word.field (v &&& w) lo n = Word.field v lo n &&& Word.field w lo n := by
  simp only [Word.field, BitVec.toNat_and, Nat.shiftRight_and_distrib, Nat.and_mod_two_pow]

theorem Word.field_and_ones (w : Word) (lo n : Nat) : Word.field w lo n &&& (2 ^ n - 1) = Word.field w lo n := by
  rw [Nat.and_two_pow_sub_one_eq_mod, Nat.mod_eq_of_lt (Word.field_lt w lo n)]

/-- The mask covers `op`, `res` and the unused fields, and no other (30_encoding.md R73). -/
theorem Mnemonic.field_mask (m : Mnemonic) :
    Word.field m.mask 26 6 = 2 ^ 6 - 1 ∧ Word.field m.mask 0 14 = 2 ^ 14 - 1
      ∧ Word.field m.mask 22 4 = (if m.usesF1 then 0 else 2 ^ 4 - 1)
      ∧ Word.field m.mask 18 4 = (if m.usesF2 then 0 else 2 ^ 4 - 1)
      ∧ Word.field m.mask 14 4 = (if m.usesF3 then 0 else 2 ^ 4 - 1) := by
  cases m <;> decide

/-- The match value holds the opcode and zeros (30_encoding.md R75). -/
theorem Mnemonic.field_pattern (m : Mnemonic) :
    Word.field m.pattern 26 6 = m.opcode ∧ Word.field m.pattern 0 14 = 0 ∧ Word.field m.pattern 22 4 = 0
      ∧ Word.field m.pattern 18 4 = 0 ∧ Word.field m.pattern 14 4 = 0 := by
  cases m <;> decide

/-- A register field under its part of the mask is 0 exactly when it is 0 or its row uses it. -/
theorem Word.field_and_unused (w : Word) (lo : Nat) (used : Bool) :
    Word.field w lo 4 &&& (if used then 0 else 2 ^ 4 - 1) = 0 ↔ (used = false → Word.field w lo 4 = 0) := by
  cases used with
  | true => simp
  | false =>
    rw [if_neg Bool.false_ne_true, Word.field_and_ones]
    exact ⟨fun h _ => h, fun h => h rfl⟩

/-- A row's mask and match, as the tests of 30_encoding.md R82 on `op`, `res` and the unused fields. -/
theorem and_mask_eq_pattern_iff (w : Word) (m : Mnemonic) :
    w &&& m.mask = m.pattern ↔ m.opcode = Word.op w ∧ Word.res w = 0
      ∧ (m.usesF1 = false → Word.f1 w = 0) ∧ (m.usesF2 = false → Word.f2 w = 0) ∧ (m.usesF3 = false → Word.f3 w = 0) := by
  obtain ⟨hmop, hmres, hm1, hm2, hm3⟩ := m.field_mask
  obtain ⟨hpop, hpres, hp1, hp2, hp3⟩ := m.field_pattern
  simp only [Word.eq_iff_field, Word.field_and, hmop, hmres, hm1, hm2, hm3, hpop, hpres, hp1, hp2, hp3, Word.field_and_ones,
    Word.field_and_unused]
  simp only [Word.op, Word.res, Word.f1, Word.f2, Word.f3, Fin.ext_iff, Fin.val_zero, eq_comm (a := m.opcode)]

/-- Settles O3: field by field, mask and match are the decoder's tests on `op`, `res` and the unused fields, and the rest are the value
limits. -/
theorem legalWordsAreMaskAndMatch : Obligations.LegalWordsAreMaskAndMatch := by
  unfold Obligations.LegalWordsAreMaskAndMatch
  intro w beat
  simp only [decode_ok_iff, and_mask_eq_pattern_iff, Mnemonic.accepts, and_assoc, BitVec.extractLsb'_toNat]
  rfl

/-- The opcodes of the map (30_encoding.md R75). -/
theorem Mnemonic.opcode_ranges (m : Mnemonic) :
    (1 ≤ m.opcode ∧ m.opcode ≤ 0x06) ∨ m.opcode = 0x08 ∨ (0x10 ≤ m.opcode ∧ m.opcode ≤ 0x14)
      ∨ (0x18 ≤ m.opcode ∧ m.opcode ≤ 0x1D) ∨ (0x20 ≤ m.opcode ∧ m.opcode ≤ 0x25) ∨ (0x28 ≤ m.opcode ∧ m.opcode ≤ 0x29) := by
  cases m <;> decide

/-- A word whose opcode is no row's is rejected by the decoder's first test. -/
theorem decode_of_ofOpcode_none {w : Word} (h : Mnemonic.ofOpcode (Word.op w) = none) (beat : Nat) :
    decode w beat = .error .unassignedOpcode := by
  simp only [decode, h]

/-- Settles O5: a row with one of these opcodes would contradict the ranges of the map. -/
theorem unassignedOpcodesAreIllegal : Obligations.UnassignedOpcodesAreIllegal := by
  unfold Obligations.UnassignedOpcodesAreIllegal
  intro w beat op hop hlist
  rw [BitVec.extractLsb'_toNat] at hop
  cases hm : Mnemonic.ofOpcode (Word.op w) with
  | none => exact decode_of_ofOpcode_none hm beat
  | some m =>
    have hmop : m.opcode = op := (Mnemonic.opcode_of_ofOpcode hm).trans hop.symm
    have hranges := m.opcode_ranges
    omega

/-! ## Encoding what was decoded: O2 -/

/-- The rows' opcodes differ, so framing finds LDR's row and no other (30_encoding.md R77). -/
theorem hasBeat_iff_ldr {w : Word} {m : Mnemonic} (hop : m.opcode = Word.op w) : Word.hasBeat w = true ↔ m = .ldr := by
  rw [Word.hasBeat, beq_iff_eq, ← hop]
  exact ⟨Mnemonic.opcode_injective, fun h => by rw [h]⟩

theorem Mnemonic.beats_assemble (m : Mnemonic) (f1 f2 f3 : Fin 16) (beat : Nat) :
    (m.assemble f1 f2 f3 beat).beats = if m = .ldr then [beat] else [] := by
  cases m <;> rfl

/-- The data beats of a decoded command are those that framing takes with its word. -/
theorem beats_of_decode {w : Word} {beat : Nat} {i : Instr} (h : decode w beat = .ok i) :
    i.beats = if Word.hasBeat w then [beat] else [] := by
  obtain ⟨m, hop, -, -, rfl⟩ := decode_ok h
  simp only [Mnemonic.beats_assemble, hasBeat_iff_ldr hop]

/-- Settles O2: a legal word is the packing of its own fields, and its row decides on the beat as framing does. -/
theorem encodeOfDecode : Obligations.EncodeOfDecode := by
  unfold Obligations.EncodeOfDecode
  intro w beat i h
  have hunits := unitsOfWord_append w beat []
  rw [List.append_nil] at hunits
  rw [encode, encodeWord_of_decode h, beats_of_decode h, hunits]

/-! ## Decoding what was encoded: O1 -/

/-- The data beat of a command; 0 where it has none, as `frame` gives it. -/
def Instr.beat (i : Instr) : Nat := i.beats.headD 0

/-- The data beat of a well-formed command has `W` bits (30_encoding.md R78). -/
theorem Instr.beat_lt {W : Nat} {i : Instr} (h : i.wellFormed W = true) : i.beat < 2 ^ W := by
  cases i with
  | ldr => exact of_decide_eq_true h
  | _ => exact Nat.two_pow_pos W

/-- A field that a command's row does not use is 0 (30_encoding.md R73). -/
theorem Instr.fields_of_unused (i : Instr) :
    (i.mnemonic.usesF1 = false → i.f1 = 0) ∧ (i.mnemonic.usesF2 = false → i.f2 = 0) ∧ (i.mnemonic.usesF3 = false → i.f3 = 0) := by
  cases i with
  | str | cinit => exact ⟨fun _ => rfl, nofun, fun _ => rfl⟩
  | clrf => exact ⟨fun _ => rfl, fun _ => rfl, fun _ => rfl⟩
  | ldr | mkinf => exact ⟨nofun, fun _ => rfl, fun _ => rfl⟩
  | madd | msub | mmul | mexp | mkp | padd | smul => exact ⟨nofun, nofun, nofun⟩
  | _ => exact ⟨nofun, nofun, fun _ => rfl⟩

/-- The row of a well-formed command accepts its fields: the value limits of 30_encoding.md R79 and R80 are the other half of being
well formed. -/
theorem Instr.accepts_of_wellFormed {W : Nat} {i : Instr} (h : i.wellFormed W = true) : i.mnemonic.accepts i.f1 i.f2 i.f3 := by
  obtain ⟨h1, h2, h3⟩ := Instr.fields_of_unused i
  refine ⟨h1, h2, h3, ?_⟩
  cases i with
  | rdcsr => exact ⟨fun _ => of_decide_eq_true h, nofun, nofun⟩
  | wrcsr => exact ⟨nofun, fun _ => of_decide_eq_true h, nofun⟩
  | cinit => exact ⟨nofun, nofun, fun _ => of_decide_eq_true h⟩
  | _ => exact ⟨nofun, nofun, nofun⟩

/-- A command is what its row stands for with its own fields and beat. -/
theorem Instr.assemble_fields (i : Instr) : i.mnemonic.assemble i.f1 i.f2 i.f3 i.beat = i := by cases i <;> rfl

/-- The word of a well-formed command decodes, with its beat, to the command. -/
theorem decode_encodeWord {W : Nat} {i : Instr} (h : i.wellFormed W = true) : decode (encodeWord i) i.beat = .ok i := by
  have hdec := decode_pack (Instr.accepts_of_wellFormed h) i.beat
  rwa [Instr.assemble_fields] at hdec

/-- The beat that framing gives decodes as the beat offered: where it differs, the word has none. -/
theorem decode_framed_beat (w : Word) (beat : Nat) : decode w (if Word.hasBeat w then beat else 0) = decode w beat := by
  cases h : Word.hasBeat w with
  | true => rw [if_pos rfl]
  | false => exact decode_beat_irrelevant h _ _

/-- The channel units of a well-formed command are those of its word and its beat, by O2. -/
theorem encode_eq_unitsOfWord {W : Nat} {i : Instr} (h : i.wellFormed W = true) :
    encode i = unitsOfWord (encodeWord i) i.beat :=
  encodeOfDecode _ _ _ (decode_encodeWord h)

/-- Settles O1: the units are framed as the word and its beat, and the word decodes to the command. -/
theorem decodeUnitsOfEncode : Obligations.DecodeUnitsOfEncode := by
  unfold Obligations.DecodeUnitsOfEncode
  intro W i rest h
  have hframe := frame_unitsOfWord W (encodeWord i) i.beat rest (Instr.beat_lt h)
  rw [← encode_eq_unitsOfWord h] at hframe
  exact decodeUnits_of_frame hframe ((decode_framed_beat _ _).trans (decode_encodeWord h))

/-! ## The three commands that run while a fault is pending -/

theorem Mnemonic.runsFaulted_iff (m : Mnemonic) : m.runsFaulted = true ↔ m ∈ [.str, .rdcsr, .clrf] := by cases m <;> decide

/-- No fault kind is raised by STR, RDCSR or CLRF (30_encoding.md R86; 60_exceptions.md R230). -/
theorem Mnemonic.not_mem_raisedBy {m : Mnemonic} (h : m.runsFaulted = true) (e : Raise) : m ∉ e.raisedBy := by
  cases m with
  | str | rdcsr | clrf => cases e <;> decide
  | _ => cases h

/-- A legal word that a beat follows is an LDR word, which does not run while a fault is pending (30_encoding.md R77, R86). -/
theorem runsFaulted_of_hasBeat {w : Word} {beat : Nat} {i : Instr} (hb : Word.hasBeat w = true) (hd : decode w beat = .ok i) :
    i.mnemonic.runsFaulted = false := by
  obtain ⟨m, hop, -, -, rfl⟩ := decode_ok hd
  rw [Mnemonic.mnemonic_assemble, (hasBeat_iff_ldr hop).mp hb]
  rfl

end Sys2Proof

namespace Sys2Proof.Machine

/-! ## Steps on an encoded command, and the faulted core: O6, O10 -/

/-- An idle core issues any word with the beat offered: where framing gives another, the word has none (30_encoding.md R77). -/
theorem step_of_word {s : State} {w : Word} {beat : Nat} {rest : List Nat} (hrx : s.rx = .idle)
    (hu : s.units = unitsOfWord w beat ++ rest) (hb : beat < 2 ^ s.width) : step s = issue w beat { s with units := rest } := by
  rw [step_of_units hrx hu hb]
  simp only [issue, decode_framed_beat]

/-- An idle core takes the units of a well-formed command and executes it, if it may run (30_encoding.md R85, R86). -/
theorem step_of_encode {s : State} {i : Instr} {rest : List Nat} (hrx : s.rx = .idle) (hwf : i.wellFormed s.width = true)
    (hu : s.units = encode i ++ rest) (hr : s.fault = false ∨ i.mnemonic ∈ [.str, .rdcsr, .clrf]) :
    step s = exec i { s with units := rest } := by
  rw [encode_eq_unitsOfWord hwf] at hu
  rw [step_of_word hrx hu (Instr.beat_lt hwf)]
  exact issue_of_ok (decode_encodeWord hwf) (hr.imp_right i.mnemonic.runsFaulted_iff.mpr)

/-- Settles O6: the command's units are framed and decoded to it, a late beat is decoded with the word that waits for it, and `issue`
executes a legal word. -/
theorem stepRunsDecodedCommand : Obligations.StepRunsDecodedCommand := by
  unfold Obligations.StepRunsDecodedCommand
  refine ⟨fun s i rest hrx hwf hu hr => step_of_encode hrx hwf hu hr, fun s w beat i rest hrx hu hb hd hf => ?_⟩
  rw [step_of_beat hrx hu hb]
  exact issue_of_ok hd (.inl hf)

/-- A well-formed STR, RDCSR or CLRF leaves no fault pending but one that was pending before. -/
theorem Effect.fault_of_runsFaulted {i : Instr} {s t : State} (h : Effect i s t) (hr : i.mnemonic.runsFaulted = true)
    (hwf : i.wellFormed s.width = true) (ht : t.fault = true) : s.fault = true := by
  cases h with
  | raised e he =>
    rcases he with he | ⟨-, hill⟩
    · exact absurd he (Mnemonic.not_mem_raisedBy hr e)
    · exact absurd (hwf.symm.trans hill) (by decide)
  | cleared => cases ht
  | _ => exact ht

/-- A faulted core takes the units of any word that is not one of the three, and does nothing else (30_encoding.md R86). -/
theorem step_discards {s : State} {w : Word} {beat : Nat} {rest : List Nat} (hf : s.fault = true) (hrx : s.rx = .idle)
    (hb : beat < 2 ^ s.width) (hu : s.units = unitsOfWord w beat ++ rest)
    (hn : ∀ i, decode w beat = .ok i → i.mnemonic ∉ [.str, .rdcsr, .clrf]) : step s = .next { s with units := rest } := by
  rw [step_of_word hrx hu hb]
  exact issue_discards hf fun i hd => Bool.eq_false_iff.mpr fun hr => hn i hd (i.mnemonic.runsFaulted_iff.mp hr)

/-- A faulted core takes an awaited beat, and does nothing else (30_encoding.md R86). -/
theorem step_discards_beat {s : State} {w : Word} {beat : Nat} {rest : List Nat} (hf : s.fault = true)
    (hrx : s.rx = .awaitBeat w) (hw : Word.hasBeat w = true) (hb : beat < 2 ^ s.width) (hu : s.units = beat :: rest) :
    step s = .next { s with rx := .idle, units := rest } := by
  rw [step_of_beat hrx hu hb]
  exact issue_discards hf fun _ => runsFaulted_of_hasBeat hw

/-- Settles O10: the three run and have no effect that raises, and `issue` discards every other word. -/
theorem faultedCoreRunsOnlyStrRdcsrClrf : Obligations.FaultedCoreRunsOnlyStrRdcsrClrf := by
  unfold Obligations.FaultedCoreRunsOnlyStrRdcsrClrf
  refine ⟨fun s i rest _ hrx hi hwf hu => step_of_encode hrx hwf hu (.inr hi), fun s t i hi hwf hexec ht => ?_,
    fun s w beat rest hf hrx hb hu hn => step_discards hf hrx hb hu hn,
    fun s w beat rest hf hrx hop hb hu => step_discards_beat hf hrx ((hasBeat_iff w).mpr hop) hb hu⟩
  have heff := exec_effect hexec
  have hs := heff.fault_of_runsFaulted (i.mnemonic.runsFaulted_iff.mpr hi) hwf ht
  exact ⟨hs, heff.record_of_pending hs ht⟩

end Sys2Proof.Machine

namespace Sys2Proof.Machine

/-! ## MADD, MSUB, MMUL and MEXP: O37, O38, O39, O41 -/

/-- With a configuration, a computing command whose body only writes a scalar register does that and nothing else. -/
theorem State.computing_withScalar {s : State} (hcfg : s.cfg = true) (w : Word) (rd : RegIdx) (v : State → Nat) :
    s.computing w (fun s => .ok (s.setReg rd (v s))) = .next (withScalar s rd (v s)) := by
  rw [State.computing_of_cfg hcfg, State.conclude_ok, withScalar_eq_setReg]

/-- Every computing command commits NotConfigured without a configuration (60_exceptions.md R232). -/
theorem exec_notConfigured {i : Instr} {s : State} (hm : i.mnemonic ∈ Raise.raisedBy .notConfigured) (hcfg : s.cfg = false)
    (hf : s.fault = false) : exec i s = .next { s with fault := true, fcode := 2, fcmd := encodeWord i } := by
  cases i with
  | madd | msub | mmul | minv | mexp | pchk | pneg | padd | pdbl | smul | pord | encf | decf =>
    simp only [exec]
    exact State.computing_notConfigured hcfg hf _ _
  | _ => simp [Instr.mnemonic, Raise.raisedBy] at hm

/-- The word it records is the `match` of its row with its fields (30_encoding.md R75). -/
theorem exec_notConfigured_word {i : Instr} {m : Mnemonic} {s : State} {base : Nat} (hi : i.mnemonic = m)
    (hm : m ∈ Raise.raisedBy .notConfigured) (hbase : m.opcode * 67108864 = base) (hcfg : s.cfg = false)
    (hf : s.fault = false) :
    exec i s = .next { s with fault := true, fcode := 2, fcmd := commandWord base i.f1 i.f2 i.f3 } := by
  subst hi
  rw [exec_notConfigured hm hcfg hf, encodeWord_eq_commandWord hbase]

/-- MADD writes the remainder of the unreduced sum (40_field_arithmetic.md R101). -/
theorem exec_madd {s : State} (hcfg : s.cfg = true) (rd rs1 rs2 : RegIdx) :
    exec (.madd rd rs1 rs2) s = .next (withScalar s rd ((s.reg rs1 + s.reg rs2) % s.cp)) := by
  simp only [exec, execMadd, State.computing_withScalar hcfg, State.fieldReg, ← Nat.add_mod]

/-- MSUB writes the remainder of the difference of the reduced operands (40_field_arithmetic.md R102). -/
theorem exec_msub {s : State} (hcfg : s.cfg = true) (rd rs1 rs2 : RegIdx) :
    exec (.msub rd rs1 rs2) s = .next (withScalar s rd (modP ((s.fieldReg rs1 : Int) - s.fieldReg rs2) s.cp)) := by
  simp only [exec, execMsub, State.computing_withScalar hcfg]

/-- That remainder is the one of the unreduced difference (00_scope.md R9). -/
theorem modP_fieldReg_sub {s : State} (hp : 0 < s.cp) (i j : RegIdx) :
    (modP ((s.fieldReg i : Int) - s.fieldReg j) s.cp : Int) = ((s.reg i : Int) - s.reg j) % s.cp := by
  rw [modP_cast _ hp, State.fieldReg, State.fieldReg, Int.natCast_mod, Int.natCast_mod, ← Int.sub_emod]

/-- MMUL writes the remainder of the unreduced product (40_field_arithmetic.md R103). -/
theorem exec_mmul {s : State} (hcfg : s.cfg = true) (rd rs1 rs2 : RegIdx) :
    exec (.mmul rd rs1 rs2) s = .next (withScalar s rd ((s.reg rs1 * s.reg rs2) % s.cp)) := by
  simp only [exec, execMmul, State.computing_withScalar hcfg, State.fieldReg, ← Nat.mul_mod]

/-- MEXP writes the power of the reduced base, by `powMod_eq` (40_field_arithmetic.md R105). -/
theorem exec_mexp {s : State} (hcfg : s.cfg = true) (rd base exp : RegIdx) :
    exec (.mexp rd base exp) s = .next (withScalar s rd ((s.reg base % s.cp) ^ s.reg exp % s.cp)) := by
  simp only [exec, execMexp, State.computing_withScalar hcfg, powMod_eq, State.fieldReg]

/-- Settles O41: MEXP writes `powMod`, which the invariant of square-and-multiply makes the mathematical power. -/
theorem mexpRaisesToRawExponent : Obligations.MexpRaisesToRawExponent := by
  unfold Obligations.MexpRaisesToRawExponent
  intro s rd base exp
  exact ⟨fun hcfg _ => exec_mexp hcfg rd base exp, exec_notConfigured_word (m := .mexp) rfl (by decide) (by decide)⟩

/-- Settles O37: the sum of the remainders has the remainder of the sum. -/
theorem maddAddsModP : Obligations.MaddAddsModP := by
  unfold Obligations.MaddAddsModP
  intro s rd rs1 rs2
  exact ⟨fun hcfg => exec_madd hcfg rd rs1 rs2, exec_notConfigured_word (m := .madd) rfl (by decide) (by decide)⟩

/-- Settles O38: MSUB writes a natural, the remainder of the integer difference of the registers. -/
theorem msubSubtractsModP : Obligations.MsubSubtractsModP := by
  unfold Obligations.MsubSubtractsModP
  intro s rd rs1 rs2
  exact ⟨fun hcfg hp => ⟨_, modP_fieldReg_sub hp rs1 rs2, exec_msub hcfg rd rs1 rs2⟩,
    exec_notConfigured_word (m := .msub) rfl (by decide) (by decide)⟩

/-- Settles O39: the product of the remainders has the remainder of the product. -/
theorem mmulMultipliesModP : Obligations.MmulMultipliesModP := by
  unfold Obligations.MmulMultipliesModP
  intro s rd rs1 rs2
  exact ⟨fun hcfg => exec_mmul hcfg rd rs1 rs2, exec_notConfigured_word (m := .mmul) rfl (by decide) (by decide)⟩

end Sys2Proof.Machine

namespace Sys2Proof.Machine

/-! ## CINIT: O42 -/

/-- A register of the block of CINIT: the index does not wrap around while it stays in the register file (30_encoding.md R80). -/
theorem RegIdx.add_eq_mk {b n : RegIdx} (h : b.val + n.val < 16) : b + n = ⟨b.val + n.val, h⟩ :=
  Fin.ext (Nat.mod_eq_of_lt h)

/-- CINIT of a block within the register file ends as `construct` does on its five raw registers (41_curve_config.md R120, R125). -/
theorem exec_cinit {s : State} {b : RegIdx} (hb : b.val ≤ 11) :
    exec (.cinit b) s =
      s.conclude (commandWord 0x20000000 0 b 0)
        ((construct (s.reg b) (s.reg ⟨b.val + 1, by omega⟩) (s.reg ⟨b.val + 2, by omega⟩) (s.reg ⟨b.val + 3, by omega⟩)
          (s.reg ⟨b.val + 4, by omega⟩)).map s.setCurve) := by
  have h1 : b + 1 = ⟨b.val + 1, by omega⟩ := RegIdx.add_eq_mk (n := 1) _
  have h2 : b + 2 = ⟨b.val + 2, by omega⟩ := RegIdx.add_eq_mk (n := 2) _
  have h3 : b + 3 = ⟨b.val + 3, by omega⟩ := RegIdx.add_eq_mk (n := 3) _
  have h4 : b + 4 = ⟨b.val + 4, by omega⟩ := RegIdx.add_eq_mk (n := 4) _
  have hword : encodeWord (.cinit b) = commandWord 0x20000000 0 b 0 := encodeWord_eq_commandWord (by decide : 0x08 * 67108864 = _)
  have hbase : ¬ Config.lastBase < b.val := Nat.not_lt.mpr hb
  rw [← h1, ← h2, ← h3, ← h4, ← hword]
  simp only [exec, execCinit, if_neg hbase]
  cases construct (s.reg b) (s.reg (b + 1)) (s.reg (b + 2)) (s.reg (b + 3)) (s.reg (b + 4)) <;> rfl

/-- A modulus of at most 3 is refused before anything else is looked at (41_curve_config.md R121). -/
theorem construct_of_le_three {pv : Nat} (hp : pv ≤ 3) (an ad bn bd : Nat) : construct pv an ad bn bd = .error .invalidModulus :=
  if_pos hp

/-- A denominator that is no unit is refused (41_curve_config.md R122). -/
theorem construct_of_not_coprime {pv ad bd : Nat} (hp : 3 < pv) (hg : Nat.gcd (ad % pv) pv ≠ 1 ∨ Nat.gcd (bd % pv) pv ≠ 1)
    (an bn : Nat) : construct pv an ad bn bd = .error .noInverse := by
  rcases construct_cases pv an ad bn bd with ⟨hle, -⟩ | ⟨-, -, hc⟩ | ⟨-, had, hbd, -⟩
  · exact absurd hle (Nat.not_le.mpr hp)
  · exact hc
  · exact (hg.elim (· had) (· hbd)).elim

/-- Everything else gives the curve of 41_curve_config.md R123 and R124. -/
theorem construct_of_coprime {pv ad bd : Nat} (hp : 3 < pv) (had : Nat.gcd (ad % pv) pv = 1) (hbd : Nat.gcd (bd % pv) pv = 1)
    (an bn : Nat) :
    ∃ iad ibd, IsInverse pv ad iad ∧ IsInverse pv bd ibd
      ∧ construct pv an ad bn bd = .ok { p := pv
                                         a := (an * iad * Nat.lcm ad bd ^ 4) % pv
                                         b := (bn * ibd * Nat.lcm ad bd ^ 6) % pv
                                         l := Nat.lcm ad bd % pv } := by
  rcases construct_cases pv an ad bn bd with ⟨hle, -⟩ | ⟨-, hg, -⟩ | ⟨-, -, -, hc⟩
  · exact absurd hle (Nat.not_le.mpr hp)
  · exact (hg.elim (· had) (· hbd)).elim
  · exact hc

/-- Settles O42: CINIT ends as `construct` does, and `construct` is one of its three cases. -/
theorem cinitCommitsOrLeavesConfiguration : Obligations.CinitCommitsOrLeavesConfiguration := by
  unfold Obligations.CinitCommitsOrLeavesConfiguration
  intro s b hb
  rw [exec_cinit hb]
  refine ⟨fun hf hp => ?_, fun hf hp hg => ?_, fun hp had hbd => ?_⟩
  · rw [construct_of_le_three hp]
    exact congrArg Host.Outcome.next (State.commitFault_of_clear hf _ _)
  · rw [construct_of_not_coprime hp hg]
    exact congrArg Host.Outcome.next (State.commitFault_of_clear hf _ _)
  · obtain ⟨iad, ibd, hia, hib, hc⟩ := construct_of_coprime hp had hbd _ _
    exact ⟨iad, ibd, hia, hib, by rw [hc]; rfl⟩

/-! ## The scaling factor CINIT leaves: O43 -/

/-- A CINIT that leaves no fault pending has committed a curve it constructed (41_curve_config.md R125). -/
theorem exec_cinit_of_no_fault {s t : State} {b : RegIdx} (h : exec (.cinit b) s = .next t) (hf : t.fault = false) :
    ∃ (c : Curve) (pv an ad bn bd : Nat), construct pv an ad bn bd = .ok c ∧ t = s.setCurve c := by
  cases execCinit_effect h with
  | configured base c _ hc => exact ⟨c, _, _, _, _, _, hc, rfl⟩
  | raised => simp at hf
  | wroteScalar _ _ hi | wrotePoint _ _ hi | sent _ hi | wroteCtrl _ _ hi | cleared hi => cases hi

/-- With a unit `l`, a point is taken out of its fractional form by scaling with the inverse of `l`; on `INF` the scaling does nothing
(44_fractional_codec.md R191). -/
theorem fromFractional_of_coprime {c : Curve} (hp : 1 < c.p) (hg : Nat.gcd (c.l % c.p) c.p = 1) (v : Point) :
    ∃ li, IsInverse c.p c.l li ∧ fromFractional c v = .ok (v.scale c.p li) := by
  obtain ⟨li, hli, hinv⟩ := invP_of_coprime (a := (c.l : Int)) hp (by rwa [modP_natCast])
  refine ⟨li, hinv, ?_⟩
  cases v with
  | inf => rfl
  | aff x y => simp only [fromFractional, hli]

/-- DECF in a configuration with a unit CL writes the scaled point and nothing else (44_fractional_codec.md R191). -/
theorem exec_decf_of_coprime {s : State} (hcfg : s.cfg = true) (hp : 1 < s.cp) (hg : Nat.gcd (s.cl % s.cp) s.cp = 1) (pd ps : PtIdx) :
    ∃ li, IsInverse s.cp s.cl li ∧ exec (.decf pd ps) s = .next (s.setPt pd ((s.canonPt ps).scale s.cp li)) := by
  obtain ⟨li, hinv, hv⟩ := fromFractional_of_coprime (c := s.curve) hp hg (s.canonPt ps)
  refine ⟨li, hinv, ?_⟩
  simp only [exec, execDecf, State.computing_of_cfg hcfg, hv, State.conclude_ok]
  rfl

/-- Settles O43: the curve CINIT commits has a unit `l` by `construct_ok`, and a unit is all DECF asks for. -/
theorem cinitMakesScaleInvertible : Obligations.CinitMakesScaleInvertible := by
  unfold Obligations.CinitMakesScaleInvertible
  intro s t b _ h hf
  obtain ⟨c, pv, an, ad, bn, bd, hc, rfl⟩ := exec_cinit_of_no_fault h hf
  obtain ⟨-, hp, -, -, hpos, hlt, hg⟩ := construct_ok hc
  refine ⟨hg, hpos, fun u pd ps hcfg hcp hcl hu => ?_⟩
  rw [State.setCurve_cp] at hcp
  rw [State.setCurve_cl] at hcl
  have hunit : Nat.gcd (u.cl % u.cp) u.cp = 1 := by rw [hcl, hcp, Nat.mod_eq_of_lt hlt, hg]
  obtain ⟨li, -, hexec⟩ := exec_decf_of_coprime hcfg (by omega) hunit pd ps
  exact ⟨_, hexec, hu⟩

end Sys2Proof.Machine

namespace Sys2Proof.Machine

/-! ## The group law by branches: 42_point_ops.md R142, R148

One equation for each branch of `ecadd` on two affine points, and what the points of a branch satisfy. -/

/-- Reduction does not change what is coprime to the modulus. -/
theorem gcd_modP (a : Int) {p : Nat} (hp : 0 < p) : Nat.gcd (modP a p) p = Int.gcd a p := by
  rw [← Int.gcd_natCast_natCast, modP_cast a hp, Int.gcd_emod]

theorem gcd_modP_two_mul (y p : Nat) : Nat.gcd (modP (2 * (y : Int)) p) p = Nat.gcd ((2 * y) % p) p := by
  rw [← modP_natCast, Nat.cast_mul, Nat.cast_ofNat]

/-- An inverse as a congruence (00_scope.md R11). -/
theorem IsInverse.mul_modEq_one {p : Nat} {a : Int} {b : Nat} (h : IsInverse p a b) : a * b ≡ 1 [ZMOD p] := by
  obtain ⟨hpos, hlt, hmul⟩ := h
  rw [Int.ModEq, hmul, Int.emod_eq_of_lt (by omega) (by omega)]

/-- Doubling `y` gives 0 for no `y` that makes `2y` a unit. -/
theorem add_self_mod_ne_zero {p y : Nat} (hp : 1 < p) (hg : Nat.gcd ((2 * y) % p) p = 1) : (y + y) % p ≠ 0 := by
  intro h
  rw [two_mul, h, Nat.gcd_zero_left] at hg
  omega

theorem ecadd_of_opposite {c : Curve} {y1 y2 : Nat} (x : Nat) (h : (y1 + y2) % c.p = 0) :
    ecadd c (.aff x y1) (.aff x y2) = .ok .inf := by
  simp only [ecadd, true_and, if_pos h]

/-- The tangent's slope and point, for equal points with a unit `2y`. -/
theorem ecadd_self_of_coprime {c : Curve} {y : Nat} (hp : 1 < c.p) (x : Nat) (hg : Nat.gcd ((2 * y) % c.p) c.p = 1) :
    ∃ (iv m : Nat) (q : Point), IsInverse c.p (2 * (y : Int)) iv ∧ (m : Int) = ((3 * (x : Int) * x + c.a) * iv) % c.p
      ∧ IsChord c.p m x y x q.toReg ∧ ecadd c (.aff x y) (.aff x y) = .ok q := by
  obtain ⟨iv, hiv, hinv⟩ := invP_of_coprime (a := 2 * (y : Int)) hp (by rwa [gcd_modP_two_mul])
  refine ⟨iv, _, _, hinv, modP_cast _ (by omega), chord_isChord (by omega) _ _ _ _, ?_⟩
  simp only [ecadd, true_and, and_self, if_neg (add_self_mod_ne_zero hp hg), if_true, hiv]

theorem ecadd_self_of_not_coprime {c : Curve} {y : Nat} (x : Nat) (hy : (y + y) % c.p ≠ 0)
    (hg : Nat.gcd ((2 * y) % c.p) c.p ≠ 1) : ecadd c (.aff x y) (.aff x y) = .error .noInverse := by
  have hiv : invP c.p (2 * (y : Int)) = .error .noInverse := invP_of_not_coprime (by rwa [gcd_modP_two_mul])
  simp only [ecadd, true_and, and_self, if_neg hy, if_true, hiv]

/-- The chord, for different `x` whose difference is a unit. -/
theorem ecadd_of_coprime {c : Curve} {x1 x2 : Nat} (hp : 1 < c.p) (y1 y2 : Nat) (hx : x1 ≠ x2)
    (hg : Int.gcd ((x2 : Int) - x1) c.p = 1) :
    ∃ iv, IsInverse c.p ((x2 : Int) - x1) iv
      ∧ ecadd c (.aff x1 y1) (.aff x2 y2) = .ok (chord c.p (modP (((y2 : Int) - y1) * iv) c.p) x1 y1 x2) := by
  obtain ⟨iv, hiv, hinv⟩ := invP_of_coprime (a := (x2 : Int) - x1) hp (by rwa [gcd_modP _ (by omega)])
  exact ⟨iv, hinv, by simp only [ecadd, hx, false_and, if_false, hiv]⟩

theorem ecadd_of_not_coprime {c : Curve} {x1 x2 : Nat} (hp : 0 < c.p) (y1 y2 : Nat) (hx : x1 ≠ x2)
    (hg : Int.gcd ((x2 : Int) - x1) c.p ≠ 1) : ecadd c (.aff x1 y1) (.aff x2 y2) = .error .noInverse := by
  have hiv : invP c.p ((x2 : Int) - x1) = .error .noInverse := invP_of_not_coprime (by rwa [gcd_modP _ hp])
  simp only [ecadd, hx, false_and, if_false, hiv]

/-- Points with equal `x` that are neither equal nor opposite: the slope's denominator is 0, which is no unit. -/
theorem ecadd_of_same_x {c : Curve} {y1 y2 : Nat} (hp : 1 < c.p) (x : Nat) (hy : y1 ≠ y2) (hs : (y1 + y2) % c.p ≠ 0) :
    ecadd c (.aff x y1) (.aff x y2) = .error .noInverse := by
  have hg : Int.gcd ((x : Int) - x) c.p ≠ 1 := by
    rw [sub_self, Int.zero_gcd, Int.natAbs_natCast]
    omega
  have hiv : invP c.p ((x : Int) - x) = .error .noInverse := invP_of_not_coprime (by rwa [gcd_modP _ (by omega)])
  simp only [ecadd, true_and, if_neg hs, if_neg hy, hiv]

/-! ### Commutativity (42_point_ops.md R143) -/

/-- The chord may start at either of its two points: the third `x` is symmetric, and the slope takes one `y` to the other. -/
theorem chord_comm {p m x1 y1 x2 y2 : Nat} (hp : 0 < p) (hm : (m : Int) * ((x2 : Int) - x1) ≡ (y2 : Int) - y1 [ZMOD p]) :
    chord p m x1 y1 x2 = chord p m x2 y2 x1 := by
  have hx3 : (m : Int) * m - x1 - x2 = (m : Int) * m - x2 - x1 := sub_right_comm _ _ _
  simp only [chord, hx3, Point.aff.injEq, true_and, modP_eq_iff hp]
  generalize modP ((m : Int) * m - x2 - x1) p = x3
  calc (m : Int) * (x1 - x3) - y1 = m * (x1 - x3) - y2 + (y2 - y1) := by ring
    _ ≡ m * (x1 - x3) - y2 + m * (x2 - x1) [ZMOD p] := hm.symm.add_left _
    _ = m * (x2 - x3) - y2 := by ring

/-- The slope times the difference of the `x` is the difference of the `y`. -/
theorem IsInverse.slope_mul {p iv : Nat} {d : Int} (hp : 0 < p) (h : IsInverse p d iv) (n : Int) :
    (modP (n * iv) p : Int) * d ≡ n [ZMOD p] := by
  calc (modP (n * iv) p : Int) * d ≡ n * iv * d [ZMOD p] := (modP_modEq _ hp).mul_right _
    _ = n * (d * iv) := by ring
    _ ≡ n * 1 [ZMOD p] := h.mul_modEq_one.mul_left _
    _ = n := mul_one n

/-- Both orders of two points have the same slope: its numerator and its denominator change sign together. -/
theorem IsInverse.slope_neg {p iv iv' : Nat} {d : Int} (hp : 0 < p) (h : IsInverse p d iv) (h' : IsInverse p (-d) iv') (n : Int) :
    modP (n * iv) p = modP (-n * iv') p := by
  rw [modP_eq_iff hp]
  calc n * iv = n * iv * 1 := (mul_one _).symm
    _ ≡ n * iv * (-d * iv') [ZMOD p] := h'.mul_modEq_one.symm.mul_left _
    _ = -n * iv' * (d * iv) := by ring
    _ ≡ -n * iv' * 1 [ZMOD p] := h.mul_modEq_one.mul_left _
    _ = -n * iv' := mul_one _

theorem ecadd_comm_of_ne {c : Curve} {x1 x2 : Nat} (hp : 1 < c.p) (y1 y2 : Nat) (hx : x1 ≠ x2) :
    ecadd c (.aff x1 y1) (.aff x2 y2) = ecadd c (.aff x2 y2) (.aff x1 y1) := by
  have hpos : 0 < c.p := by omega
  have hsym : Int.gcd ((x1 : Int) - x2) c.p = Int.gcd ((x2 : Int) - x1) c.p := by rw [← neg_sub, Int.neg_gcd]
  by_cases hg : Int.gcd ((x2 : Int) - x1) c.p = 1
  · obtain ⟨iv, hinv, h⟩ := ecadd_of_coprime hp y1 y2 hx hg
    obtain ⟨iv', hinv', h'⟩ := ecadd_of_coprime hp y2 y1 hx.symm (hsym.trans hg)
    have hslope := hinv.slope_neg hpos (neg_sub (x2 : Int) x1 ▸ hinv') ((y2 : Int) - y1)
    rw [neg_sub] at hslope
    rw [h, h', ← hslope, chord_comm hpos (hinv.slope_mul hpos _)]
  · rw [ecadd_of_not_coprime hpos y1 y2 hx hg, ecadd_of_not_coprime hpos y2 y1 hx.symm (hsym ▸ hg)]

/-- The group law commutes on all point values, on the curve or not (42_point_ops.md R143). -/
theorem ecadd_comm {c : Curve} (hp : 1 < c.p) (P Q : Point) : ecadd c P Q = ecadd c Q P := by
  cases P with
  | inf => rw [ecadd_inf_left, ecadd_inf_right]
  | aff x1 y1 =>
    cases Q with
    | inf => rw [ecadd_inf_left, ecadd_inf_right]
    | aff x2 y2 =>
      by_cases hx : x1 = x2
      · subst hx
        by_cases hs : (y1 + y2) % c.p = 0
        · rw [ecadd_of_opposite x1 hs, ecadd_of_opposite x1 (by rwa [add_comm])]
        · by_cases hy : y1 = y2
          · rw [hy]
          · rw [ecadd_of_same_x hp x1 hy hs, ecadd_of_same_x hp x1 (Ne.symm hy) (by rwa [add_comm])]
      · exact ecadd_comm_of_ne hp y1 y2 hx

/-! ## How a point command ends -/

theorem withPoint_toReg (s : State) (pd : PtIdx) (v : Point) : withPoint s pd v.toReg = s.setPt pd v := rfl

/-- With no fault pending, a command that raises a fault writes the fault registers and nothing else (60_exceptions.md R237). -/
theorem State.conclude_error_of_clear {s : State} (hf : s.fault = false) (w : Word) (e : Raise) :
    s.conclude w (.error e) = .next { s with fault := true, fcode := e.code, fcmd := w } := by
  rw [State.conclude_error, State.commitFault_of_clear hf]

/-- With a configuration, a computing command whose body only writes a point register does that and nothing else. -/
theorem State.computing_withPoint {s : State} (hcfg : s.cfg = true) (w : Word) (pd : PtIdx) (v : State → Point) :
    s.computing w (fun s => .ok (s.setPt pd (v s))) = .next (withPoint s pd (v s).toReg) := by
  rw [State.computing_of_cfg hcfg, State.conclude_ok, withPoint_toReg]

theorem exceptBind_pure {ε α β : Type} (x : Except ε α) (f : α → β) : (do let v ← x; return f v) = x.map f := by
  cases x <;> rfl

theorem encodeWord_padd (pd a b : PtIdx) : encodeWord (.padd pd a b) = commandWord 0x88000000 pd a b :=
  encodeWord_eq_commandWord (i := .padd pd a b) (by decide : 0x22 * 67108864 = _)

theorem encodeWord_pdbl (pd ps : PtIdx) : encodeWord (.pdbl pd ps) = commandWord 0x8C000000 pd ps 0 :=
  encodeWord_eq_commandWord (i := .pdbl pd ps) (by decide : 0x23 * 67108864 = _)

/-- PADD of admitted operands ends as the group law does on them (42_point_ops.md R144). -/
theorem exec_padd_of_admits {s : State} {a b : PtIdx} (hcfg : s.cfg = true) (ha : s.admits a) (hb : s.admits b) (pd : PtIdx) :
    exec (.padd pd a b) s =
      s.conclude (commandWord 0x88000000 pd a b) ((ecadd s.curve (s.canonPt a) (s.canonPt b)).map (s.setPt pd)) := by
  simp only [exec, execPadd, State.computing_of_cfg hcfg, State.domainCheck_of_admits ha, State.domainCheck_of_admits hb,
    exceptBind_pure, encodeWord_padd]
  rfl

/-- PDBL of an admitted operand ends as the group law does on it twice (42_point_ops.md R145). -/
theorem exec_pdbl_of_admits {s : State} {ps : PtIdx} (hcfg : s.cfg = true) (h : s.admits ps) (pd : PtIdx) :
    exec (.pdbl pd ps) s =
      s.conclude (commandWord 0x8C000000 pd ps 0) ((ecadd s.curve (s.canonPt ps) (s.canonPt ps)).map (s.setPt pd)) := by
  simp only [exec, execPdbl, State.computing_of_cfg hcfg, State.domainCheck_of_admits h, exceptBind_pure, encodeWord_pdbl]
  rfl

/-- PDBL of an operand that is not admitted raises DomainViolation (42_point_ops.md R147). -/
theorem exec_pdbl_of_not_admits {s : State} {ps : PtIdx} (hcfg : s.cfg = true) (hp : 0 < s.cp) (h : ¬ s.admits ps) (pd : PtIdx) :
    exec (.pdbl pd ps) s = s.conclude (commandWord 0x8C000000 pd ps 0) (.error .domainViolation) := by
  simp only [exec, execPdbl, State.computing_of_cfg hcfg, State.domainCheck_of_not_admits hp h, encodeWord_pdbl]
  rfl

/-! ## PADD: O46 to O49 -/

section
variable {s : State} {a b : PtIdx} (hcfg : s.cfg = true) (ha : s.admits a) (hb : s.admits b)
include hcfg ha hb

/-- PADD writes the point the group law answers, if it answers one. -/
theorem exec_padd_of_ok {v : Point} (h : ecadd s.curve (s.canonPt a) (s.canonPt b) = .ok v) (pd : PtIdx) :
    exec (.padd pd a b) s = .next (withPoint s pd v.toReg) := by
  rw [exec_padd_of_admits hcfg ha hb, h]
  rfl

/-- PADD commits NoInverse, if the group law raises it. -/
theorem exec_padd_of_noInverse (hf : s.fault = false) (h : ecadd s.curve (s.canonPt a) (s.canonPt b) = .error .noInverse)
    (pd : PtIdx) :
    exec (.padd pd a b) s = .next { s with fault := true, fcode := 4, fcmd := commandWord 0x88000000 pd a b } := by
  rw [exec_padd_of_admits hcfg ha hb, h]
  exact State.conclude_error_of_clear hf _ .noInverse

end

/-- Settles O46: the first three answers of the group law; `INF` stays `INF` in canonical form, and opposite points stay opposite. -/
theorem paddIdentityAndInverse : Obligations.PaddIdentityAndInverse := by
  unfold Obligations.PaddIdentityAndInverse
  intro s pd a b hcfg ha hb
  refine ⟨fun hinf => ?_, fun hinf => ?_, fun hfa hfb hx hy => ?_⟩
  · exact exec_padd_of_ok hcfg ha hb (by rw [State.canonPt_of_inf hinf, ecadd_inf_left]) pd
  · exact exec_padd_of_ok hcfg ha hb (by rw [State.canonPt_of_inf hinf, ecadd_inf_right]) pd
  · refine exec_padd_of_ok (v := .inf) hcfg ha hb ?_ pd
    rw [State.canonPt_of_aff hfa, State.canonPt_of_aff hfb, hx]
    exact ecadd_of_opposite _ (by rwa [Nat.add_mod] at hy)

/-- Settles O47: the operands are one canonical point, on which the group law takes the tangent. -/
theorem paddDoublingBranch : Obligations.PaddDoublingBranch := by
  unfold Obligations.PaddDoublingBranch
  intro s pd a b hcfg hp ha hb hfa hfb x y hx hy hg
  have hp1 : 1 < s.cp := by omega
  obtain ⟨iv, m, q, hinv, hm, hq, h⟩ := ecadd_self_of_coprime (c := s.curve) hp1 x hg
  refine ⟨iv, m, q.toReg, hinv, hm, hq, exec_padd_of_ok hcfg ha hb ?_ pd⟩
  rw [State.canonPt_of_aff hfa, State.canonPt_of_aff hfb, hx, hy]
  exact h

/-- Settles O48: for different `x` the group law takes the chord. -/
theorem paddGeneralBranch : Obligations.PaddGeneralBranch := by
  unfold Obligations.PaddGeneralBranch
  intro s pd a b hcfg hp ha hb hfa hfb x1 y1 x2 y2 hx hg
  have hpos : 0 < s.cp := by omega
  have hp1 : 1 < s.cp := by omega
  obtain ⟨iv, hinv, h⟩ := ecadd_of_coprime (c := s.curve) hp1 y1 y2 hx hg
  refine ⟨iv, _, _, hinv, modP_cast _ hpos, chord_isChord hpos _ _ _ _, exec_padd_of_ok hcfg ha hb ?_ pd⟩
  rw [State.canonPt_of_aff hfa, State.canonPt_of_aff hfb]
  exact h

/-- Settles O49: in each of the three cases the slope's denominator is no unit. -/
theorem paddDegenerateRaisesNoInverse : Obligations.PaddDegenerateRaisesNoInverse := by
  unfold Obligations.PaddDegenerateRaisesNoInverse
  intro s pd a b hcfg hf hp ha hb hfa hfb x1 y1 x2 y2 hcase
  have hp1 : 1 < s.cp := by omega
  refine exec_padd_of_noInverse hcfg ha hb hf ?_ pd
  rw [State.canonPt_of_aff hfa, State.canonPt_of_aff hfb]
  change ecadd s.curve (.aff x1 y1) (.aff x2 y2) = _
  rcases hcase with ⟨hx, hy, hs⟩ | ⟨hx, hy, hs, hg⟩ | ⟨hx, hg⟩
  · rw [← hx]
    exact ecadd_of_same_x (c := s.curve) hp1 x1 hy hs
  · rw [← hx, ← hy]
    exact ecadd_self_of_not_coprime x1 (by rwa [← hy] at hs) hg
  · exact ecadd_of_not_coprime (c := s.curve) (Nat.zero_lt_of_lt hp1) y1 y2 hx hg

/-! ## PDBL: O50 -/

section
variable {s : State} {ps : PtIdx} (hcfg : s.cfg = true) (hadm : s.admits ps)
include hcfg hadm

/-- PDBL writes the point the group law answers, if it answers one. -/
theorem exec_pdbl_of_ok {v : Point} (h : ecadd s.curve (s.canonPt ps) (s.canonPt ps) = .ok v) (pd : PtIdx) :
    exec (.pdbl pd ps) s = .next (withPoint s pd v.toReg) := by
  rw [exec_pdbl_of_admits hcfg hadm, h]
  rfl

/-- PDBL of INF, and of a point with `2y = 0`, is INF (42_point_ops.md R142, R145). -/
theorem exec_pdbl_inf (pd : PtIdx) (h : (s.pt ps).inf = true ∨ (2 * ((s.pt ps).y % s.cp)) % s.cp = 0) :
    exec (.pdbl pd ps) s = .next (withPoint s pd { inf := true, x := 0, y := 0 }) := by
  refine exec_pdbl_of_ok (v := .inf) hcfg hadm ?_ pd
  cases hinf : (s.pt ps).inf with
  | true => rw [State.canonPt_of_inf hinf, ecadd_inf_left]
  | false =>
    rw [State.canonPt_of_aff hinf]
    exact ecadd_of_opposite _ (by rw [← two_mul]; exact h.resolve_left (by simp [hinf]))

end

/-- Settles O50: PDBL ends as the group law does on two equal arguments, after the domain check and the test of CFG. -/
theorem pdblDoubles : Obligations.PdblDoubles := by
  unfold Obligations.PdblDoubles
  intro s pd ps x y w
  refine ⟨fun hcfg hadm h => exec_pdbl_inf hcfg hadm pd h, fun hcfg hp hadm haff hg => ?_, fun hcfg hf hp hadm haff hy hg => ?_,
    fun hcfg hf hadm hp => ?_, exec_notConfigured_word (m := .pdbl) rfl (by decide) (by decide)⟩
  · have hp1 : 1 < s.cp := by omega
    obtain ⟨iv, m, q, hinv, hm, hq, h⟩ := ecadd_self_of_coprime (c := s.curve) hp1 x hg
    exact ⟨iv, m, q.toReg, hinv, hm, hq, exec_pdbl_of_ok hcfg hadm (by rw [State.canonPt_of_aff haff]; exact h) pd⟩
  · have h : ecadd s.curve (s.canonPt ps) (s.canonPt ps) = .error .noInverse := by
      rw [State.canonPt_of_aff haff]
      exact ecadd_self_of_not_coprime x (two_mul y ▸ hy) hg
    rw [exec_pdbl_of_admits hcfg hadm, h]
    exact State.conclude_error_of_clear hf w .noInverse
  · rw [exec_pdbl_of_not_admits hcfg hp hadm]
    exact State.conclude_error_of_clear hf w .domainViolation

/-! ## Commands that differ in the recorded word only: O51, O53 -/

theorem State.commitFault_fcmd_zero (s : State) (e : Raise) (w w' : Word) :
    { s.commitFault e w with fcmd := 0 } = { s.commitFault e w' with fcmd := 0 } := by
  cases hf : s.fault with
  | true => rw [State.commitFault_of_pending hf, State.commitFault_of_pending hf]
  | false => rw [State.commitFault_of_clear hf, State.commitFault_of_clear hf]

/-- Computing commands with bodies that answer the same reach the same state, but for the word in FCMD. -/
theorem State.computing_congr {s : State} {body body' : State → Except Raise State} (h : body s = body' s) (w w' : Word) :
    ∃ t u, s.computing w body = .next t ∧ s.computing w' body' = .next u ∧ { t with fcmd := 0 } = { u with fcmd := 0 } := by
  cases hcfg : s.cfg with
  | false =>
    exact ⟨_, _, State.computing_of_no_cfg hcfg w body, State.computing_of_no_cfg hcfg w' body', s.commitFault_fcmd_zero _ w w'⟩
  | true =>
    rw [State.computing_of_cfg hcfg, State.computing_of_cfg hcfg, ← h]
    cases body s with
    | ok t => exact ⟨t, t, rfl, rfl, rfl⟩
    | error e => exact ⟨_, _, rfl, rfl, s.commitFault_fcmd_zero e w w'⟩

/-- A second check of the same point changes nothing. -/
theorem State.domainCheck_twice {α : Type} (s : State) (v : Point) (r : Except Raise α) :
    (do s.domainCheck v; s.domainCheck v; r) = (do s.domainCheck v; r) := by
  rcases State.domainCheck_cases s v with ⟨h, -⟩ | ⟨h, -⟩ <;> rw [h] <;> rfl

/-- The order of two checks does not matter: both raise the same fault. -/
theorem State.domainCheck_comm {α : Type} (s : State) (v u : Point) (r : Except Raise α) :
    (do s.domainCheck v; s.domainCheck u; r) = (do s.domainCheck u; s.domainCheck v; r) := by
  rcases State.domainCheck_cases s v with ⟨hv, -⟩ | ⟨hv, -⟩
  · rw [hv]
    rfl
  · rw [hv]
    rcases State.domainCheck_cases s u with ⟨hu, -⟩ | ⟨hu, -⟩
    · rw [hu]
      rfl
    · rw [hu]

/-- Settles O51: PADD of a register with itself makes PDBL's domain check twice. -/
theorem pdblEqualsPaddOfItself : Obligations.PdblEqualsPaddOfItself := by
  unfold Obligations.PdblEqualsPaddOfItself
  intro s pd ps
  simp only [exec, execPdbl, execPadd]
  exact State.computing_congr (State.domainCheck_twice s (s.canonPt ps) _).symm _ _

/-- Settles O53: the domain checks commute, as both raise DomainViolation, and so does the group law. -/
theorem paddCommutes : Obligations.PaddCommutes := by
  unfold Obligations.PaddCommutes
  intro s pd a b hp
  have hp1 : 1 < s.cp := by omega
  simp only [exec, execPadd]
  refine State.computing_congr ?_ _ _
  rw [ecadd_comm (c := s.curve) hp1 (s.canonPt a) (s.canonPt b)]
  exact State.domainCheck_comm s (s.canonPt a) (s.canonPt b) _

/-! ## The coefficient B: O54 -/

/-- `s` with `b` in CB and nothing else changed. -/
def State.withCb (s : State) (b : Nat) : State := { s with cb := b }

/-- The curve with another `B`. -/
def Curve.withB (c : Curve) (b : Nat) : Curve := { c with b := b }

@[simp] theorem State.curve_withCb (s : State) (b : Nat) : (s.withCb b).curve = s.curve.withB b := rfl
@[simp] theorem State.canonPt_withCb (s : State) (b : Nat) (i : PtIdx) : (s.withCb b).canonPt i = s.canonPt i := rfl
@[simp] theorem State.reg_withCb (s : State) (b : Nat) (i : RegIdx) : (s.withCb b).reg i = s.reg i := rfl
@[simp] theorem State.width_withCb (s : State) (b : Nat) : (s.withCb b).width = s.width := rfl

/-- The group law does not read `B` (42_point_ops.md R142). -/
@[simp] theorem ecadd_withB (c : Curve) (b : Nat) (P Q : Point) : ecadd (c.withB b) P Q = ecadd c P Q := by
  cases P <;> cases Q <;> rfl

@[simp] theorem smulLoop_withB (c : Curve) (b steps k : Nat) (addend result : Point) :
    smulLoop (c.withB b) steps k addend result = smulLoop c steps k addend result := by
  induction steps generalizing k addend result with
  | zero => rfl
  | succ n ih => simp only [smulLoop, ecadd_withB, ih]

@[simp] theorem orderLoop_withB (c : Curve) (b : Nat) (g : Point) (left : Nat) (q : Point) (n : Nat) :
    orderLoop (c.withB b) g left q n = orderLoop c g left q n := by
  induction left generalizing q n with
  | zero => rfl
  | succ left ih => simp only [orderLoop, ecadd_withB, ih]

@[simp] theorem orderScan_withB (c : Curve) (b W : Nat) (g : Point) : orderScan (c.withB b) W g = orderScan c W g :=
  orderLoop_withB c b g _ g 1

/-- With DVCHK = 0 no domain check is made (42_point_ops.md R147). -/
theorem State.domainCheck_of_dvchk {s : State} (h : s.dvchk = false) (v : Point) : s.domainCheck v = .ok () := by
  simp [State.domainCheck, h]

theorem State.commitFault_withCb (s : State) (b : Nat) (e : Raise) (w : Word) :
    (s.withCb b).commitFault e w = (s.commitFault e w).withCb b := by
  cases hf : s.fault with
  | true => rw [State.commitFault_of_pending hf, State.commitFault_of_pending (s := s.withCb b) hf]
  | false => rw [State.commitFault_of_clear hf, State.commitFault_of_clear (s := s.withCb b) hf]; rfl

/-- A computing command does not look at CB, if its body does not. -/
theorem State.computing_withCb {s t : State} {b : Nat} {w : Word} {body : State → Except Raise State}
    (hbody : body (s.withCb b) = (body s).map (·.withCb b)) (h : s.computing w body = .next t) :
    (s.withCb b).computing w body = .next (t.withCb b) := by
  rcases State.computing_next h with ⟨hcfg, rfl⟩ | ⟨hcfg, hb | ⟨e, hb, rfl⟩⟩
  · rw [State.computing_of_no_cfg (s := s.withCb b) hcfg, State.commitFault_withCb]
  · rw [State.computing_of_cfg (s := s.withCb b) hcfg, hbody, hb]
    rfl
  · rw [State.computing_of_cfg (s := s.withCb b) hcfg, hbody, hb, ← State.commitFault_withCb]
    rfl

/-- Settles O54: without a domain check these commands read the curve through the group law only. -/
theorem groupLawIgnoresB : Obligations.GroupLawIgnoresB := by
  unfold Obligations.GroupLawIgnoresB
  intro i s t b hdv hm h
  have hcheck := State.domainCheck_of_dvchk hdv
  have hcheck' := State.domainCheck_of_dvchk (s := s.withCb b) hdv
  cases i with
  | padd | pdbl | smul | pord =>
    simp only [exec] at h ⊢
    refine State.computing_withCb (s := s) ?_ h
    simp only [hcheck, hcheck', State.curve_withCb, State.canonPt_withCb, State.reg_withCb, State.width_withCb, ecadd_withB,
      smulLoop_withB, orderScan_withB, exceptMap_bind]
    rfl
  | _ => simp [Instr.mnemonic] at hm

/-! ## PCHK and PNEG: O44, O45 -/

/-- The curve equation modulo `p` holds of a stored pair when it holds of the reduced one (00_scope.md R14; 42_point_ops.md R140). -/
theorem isOnCurve_canon (c : Curve) (v : Point) : IsOnCurve c (v.canon c.p) ↔ IsOnCurve c v := by
  cases v with
  | inf => rfl
  | aff x y =>
    have hx : ((x % c.p : Nat) : Int) ≡ x [ZMOD c.p] := by rw [Int.natCast_mod]; exact Int.mod_modEq _ _
    have hy : ((y % c.p : Nat) : Int) ≡ y [ZMOD c.p] := by rw [Int.natCast_mod]; exact Int.mod_modEq _ _
    have heq := (((hy.mul hy).sub ((hx.mul hx).mul hx)).sub (hx.mul_left c.a)).sub_right c.b
    simp only [Point.canon, IsOnCurve, Int.dvd_iff_emod_eq_zero]
    rw [heq]

/-- PCHK writes the truth value of the membership test (42_point_ops.md R141). -/
theorem exec_pchk {s : State} (hcfg : s.cfg = true) (rd : RegIdx) (ps : PtIdx) :
    exec (.pchk rd ps) s = .next (withScalar s rd (boolValue (onCurve s.curve (s.canonPt ps)))) := by
  simp only [exec, execPchk, State.computing_withScalar hcfg]

/-- Settles O44: the test is the curve equation on the reduced pair, which holds exactly when it does on the stored one. -/
theorem pchkTestsCurveEquation : Obligations.PchkTestsCurveEquation := by
  unfold Obligations.PchkTestsCurveEquation
  intro s rd ps
  refine ⟨fun hcfg hp => ⟨_, exec_pchk hcfg rd ps, ?_⟩, exec_notConfigured_word (m := .pchk) rfl (by decide) (by decide)⟩
  have hiff : onCurve s.curve (s.canonPt ps) = true ↔ IsOnCurve s.curve (s.point ps) :=
    (onCurve_iff (c := s.curve) hp _).trans (isOnCurve_canon s.curve (s.point ps))
  rw [← hiff]
  cases onCurve s.curve (s.canonPt ps) <;> simp [boolValue]

/-- PNEG writes the negation of the canonical operand (42_point_ops.md R146). -/
theorem exec_pneg {s : State} (hcfg : s.cfg = true) (pd ps : PtIdx) :
    exec (.pneg pd ps) s = .next (withPoint s pd ((s.canonPt ps).neg s.cp).toReg) := by
  simp only [exec, execPneg, State.computing_withPoint hcfg]

theorem modP_sub_of_le {p y : Nat} (h : y ≤ p) : modP ((p : Int) - y) p = (p - y) % p := by
  rw [← Nat.cast_sub h, modP_natCast]

/-- Settles O45: the integer subtraction of the rule is one of naturals, as a reduced `y` is below `CP`. -/
theorem pnegNegates : Obligations.PnegNegates := by
  unfold Obligations.PnegNegates
  intro s pd ps
  refine ⟨fun hcfg hinf => ?_, fun hcfg hp haff => ?_, exec_notConfigured_word (m := .pneg) rfl (by decide) (by decide)⟩
  · rw [exec_pneg hcfg, State.canonPt_of_inf hinf]
    rfl
  · rw [exec_pneg hcfg, State.canonPt_of_aff haff, Point.neg, modP_sub_of_le (Nat.mod_lt _ hp).le]
    rfl

end Sys2Proof.Machine

namespace Sys2Proof.Machine

/-! ## The loop of SMUL: 43_scalar_and_order.md R170

One equation of the model's loop for each way the rule's loop goes on, and from them that the two loops have the same outcome. The
model gives the loop `k` steps, so the equations are about that many. -/

/-- An iteration on a positive scalar: the addition for an odd one, then the doubling. -/
theorem smulLoop_of_pos {k : Nat} (c : Curve) (hk : 0 < k) (addend result : Point) :
    smulLoop c k k addend result = (do
      let result' ← (if k % 2 = 1 then ecadd c addend result else .ok result : Except Raise Point)
      let addend' ← ecadd c addend addend
      smulLoop c (k / 2) (k / 2) addend' result') := by
  obtain ⟨n, rfl⟩ := Nat.exists_eq_succ_of_ne_zero hk.ne'
  rw [smulLoop, if_neg hk.ne', Nat.shiftRight_one]
  cases (if n.succ % 2 = 1 then ecadd c addend result else .ok result) with
  | error e => rfl
  | ok result' =>
    cases ecadd c addend addend with
    | error e => rfl
    | ok addend' => exact smulLoop_steps c n _ _ addend' result' (by omega) le_rfl

theorem smulLoop_of_odd {k : Nat} (c : Curve) (odd : k % 2 = 1) (addend result : Point) :
    smulLoop c k k addend result = (do
      let result' ← ecadd c addend result
      let addend' ← ecadd c addend addend
      smulLoop c (k / 2) (k / 2) addend' result') := by
  rw [smulLoop_of_pos c (by omega), if_pos odd]

theorem smulLoop_of_even {k : Nat} (c : Curve) (pos : 0 < k) (even : k % 2 = 0) (addend result : Point) :
    smulLoop c k k addend result = (do
      let addend' ← ecadd c addend addend
      smulLoop c (k / 2) (k / 2) addend' result) := by
  rw [smulLoop_of_pos c pos, if_neg (by omega)]
  rfl

/-- The model's loop answers what the rule's loop does. -/
theorem DoubleAndAdd.smulLoop_eq {c : Curve} {k : Nat} {addend result : Point} {out : Except Raise Point}
    (h : DoubleAndAdd c k addend result out) : smulLoop c k k addend result = out := by
  induction h with
  | done => rfl
  | addFails odd ha => rw [smulLoop_of_odd c odd, ha]; rfl
  | doubleFailsOdd odd ha hd => rw [smulLoop_of_odd c odd, ha, hd]; rfl
  | doubleFailsEven pos even hd => rw [smulLoop_of_even c pos even, hd]; rfl
  | odd odd ha hd _ ih => rw [smulLoop_of_odd c odd, ha, hd]; exact ih
  | even pos even hd _ ih => rw [smulLoop_of_even c pos even, hd]; exact ih

/-- The rule's loop always ends, with what the model's loop answers: the scalar falls in every iteration. -/
theorem doubleAndAdd_smulLoop (c : Curve) (k : Nat) (addend result : Point) :
    DoubleAndAdd c k addend result (smulLoop c k k addend result) := by
  induction k using Nat.strong_induction_on generalizing addend result with
  | _ k ih =>
    obtain rfl | pos := Nat.eq_zero_or_pos k
    · exact .done addend result
    have fall : k / 2 < k := by omega
    obtain even | odd := Nat.mod_two_eq_zero_or_one k
    · rw [smulLoop_of_even c pos even]
      cases hd : ecadd c addend addend with
      | error e => exact .doubleFailsEven pos even hd
      | ok addend' => exact .even pos even hd (ih _ fall addend' result)
    · rw [smulLoop_of_odd c odd]
      cases ha : ecadd c addend result with
      | error e => exact .addFails odd ha
      | ok result' =>
        cases hd : ecadd c addend addend with
        | error e => exact .doubleFailsOdd odd ha hd
        | ok addend' => exact .odd odd ha hd (ih _ fall addend' result')

/-- The rule's loop raises nothing but NoInverse. -/
theorem DoubleAndAdd.error_eq {c : Curve} {k : Nat} {addend result : Point} {e : Raise}
    (h : DoubleAndAdd c k addend result (.error e)) : e = .noInverse :=
  smulLoop_error h.smulLoop_eq

/-- From `INF` the loop only ever adds and doubles `INF`. -/
theorem doubleAndAdd_inf (c : Curve) (k : Nat) : DoubleAndAdd c k .inf .inf (.ok .inf) := by
  induction k using Nat.strong_induction_on with
  | _ k ih =>
    obtain rfl | pos := Nat.eq_zero_or_pos k
    · exact .done .inf .inf
    have rest := ih (k / 2) (by omega)
    obtain even | odd := Nat.mod_two_eq_zero_or_one k
    · exact .even pos even (ecadd_inf_left c .inf) rest
    · exact .odd odd (ecadd_inf_left c .inf) (ecadd_inf_left c .inf) rest

/-! ## The scan of PORD: 43_scalar_and_order.md R175, R176

The model counts the additions `left` before the limit, so the counter `n` of the rule stands at `n + left = 2^W - 1`. -/

theorem orderLoop_inf (c : Curve) (g : Point) (left n : Nat) : orderLoop c g left .inf n = .ok n := by
  cases left <;> simp [orderLoop]

theorem orderLoop_zero {q : Point} (c : Curve) (g : Point) (hq : q ≠ .inf) (n : Nat) :
    orderLoop c g 0 q n = .error .orderOverflow := by
  rw [orderLoop, if_neg hq]

theorem orderLoop_succ {q : Point} (c : Curve) (g : Point) (hq : q ≠ .inf) (left n : Nat) :
    orderLoop c g (left + 1) q n = (do
      let q' ← ecadd c q g
      orderLoop c g left q' (n + 1)) := by
  rw [orderLoop, if_neg hq]
  cases ecadd c q g <;> rfl

/-- The model's scan answers what the rule's scan does. -/
theorem OrderScan.orderLoop_eq {c : Curve} {W left n : Nat} {g q : Point} {out : Except Raise Nat}
    (h : OrderScan c W g q n out) (hn : n + left = 2 ^ W - 1) : orderLoop c g left q n = out := by
  induction h generalizing left with
  | found n => exact orderLoop_inf c g left n
  | overflow hq limit =>
    obtain rfl : left = 0 := by omega
    exact orderLoop_zero c g hq _
  | addFails hq below ha =>
    cases left with
    | zero => exact absurd hn below
    | succ left => rw [orderLoop_succ c g hq, ha]; rfl
  | next hq below ha _ ih =>
    cases left with
    | zero => exact absurd hn below
    | succ left => rw [orderLoop_succ c g hq, ha]; exact ih (by omega)

/-- The rule's scan always ends, with what the model's scan answers: the counter runs up to its limit. -/
theorem orderScan_orderLoop {W left n : Nat} (c : Curve) (g q : Point) (hn : n + left = 2 ^ W - 1) :
    OrderScan c W g q n (orderLoop c g left q n) := by
  induction left generalizing q n with
  | zero =>
    by_cases hq : q = .inf
    · rw [hq, orderLoop_inf]
      exact .found n
    · rw [orderLoop_zero c g hq]
      exact .overflow hq hn
  | succ left ih =>
    by_cases hq : q = .inf
    · rw [hq, orderLoop_inf]
      exact .found n
    · have below : n ≠ 2 ^ W - 1 := by omega
      rw [orderLoop_succ c g hq]
      cases ha : ecadd c q g with
      | error e => exact .addFails hq below ha
      | ok q' => exact .next hq below ha (ih q' (by omega))

/-- PORD starts its counter at 1, which the limit of every width from 1 allows (43_scalar_and_order.md R176). -/
theorem one_add_additions_eq_limit {W : Nat} (hW : 1 ≤ W) : 1 + (2 ^ W - 1 - 1) = 2 ^ W - 1 := by
  have hpow : 2 ^ 1 ≤ 2 ^ W := Nat.pow_le_pow_right (by omega) hW
  omega

/-- PORD's scan has the outcomes of the rule's scan and no other. -/
theorem orderScan_iff {c : Curve} {W : Nat} {g : Point} {out : Except Raise Nat} (hW : 1 ≤ W) :
    OrderScan c W g g 1 out ↔ orderScan c W g = out :=
  ⟨fun h => h.orderLoop_eq (one_add_additions_eq_limit hW),
    fun h => h ▸ orderScan_orderLoop c g g (one_add_additions_eq_limit hW)⟩

/-- A fault of the scan that is not the counter's is the group law's. -/
theorem orderScan_error {c : Curve} {W : Nat} {g : Point} {e : Raise} (h : orderScan c W g = .error e)
    (he : e ≠ .orderOverflow) : e = .noInverse := by
  rcases orderLoop_cases h with ⟨m, hm, -⟩ | hm | hm
  · cases hm
  · exact Except.error.inj hm
  · exact absurd (Except.error.inj hm) he

/-! ## SMUL and PORD: O55, O56, O57 -/

/-- INF is on every curve, so it passes every domain check (42_point_ops.md R140, R147). -/
theorem State.admits_of_inf {s : State} {i : PtIdx} (h : (s.pt i).inf = true) : s.admits i := by
  intro _
  rw [State.canonPt_of_inf h]
  trivial

/-- A configured command on an admitted operand ends as its body after the domain check does. -/
theorem State.computing_of_admits {s : State} {i : PtIdx} (hcfg : s.cfg = true) (h : s.admits i) (w : Word)
    (body : State → Except Raise State) :
    s.computing w (fun s => do s.domainCheck (s.canonPt i); body s) = s.conclude w (body s) := by
  rw [State.computing_of_cfg hcfg, State.domainCheck_of_admits h]
  rfl

/-- A configured command on an operand that is not admitted raises DomainViolation, whatever its body is (42_point_ops.md R147). -/
theorem State.computing_of_not_admits {s : State} {i : PtIdx} (hcfg : s.cfg = true) (hp : 0 < s.cp) (h : ¬ s.admits i) (w : Word)
    (body : State → Except Raise State) :
    s.computing w (fun s => do s.domainCheck (s.canonPt i); body s) = s.conclude w (.error .domainViolation) := by
  rw [State.computing_of_cfg hcfg, State.domainCheck_of_not_admits hp h]
  rfl

theorem encodeWord_smul (pd : PtIdx) (rk : RegIdx) (ps : PtIdx) :
    encodeWord (.smul pd rk ps) = commandWord 0x90000000 pd rk ps :=
  encodeWord_eq_commandWord (i := .smul pd rk ps) (by decide : 0x24 * 67108864 = _)

theorem encodeWord_pord (rd : RegIdx) (ps : PtIdx) : encodeWord (.pord rd ps) = commandWord 0x94000000 rd ps 0 :=
  encodeWord_eq_commandWord (i := .pord rd ps) (by decide : 0x25 * 67108864 = _)

section
variable {s : State} {ps : PtIdx} (hcfg : s.cfg = true)
include hcfg

/-- SMUL of an admitted operand ends as the rule's loop does (43_scalar_and_order.md R170). -/
theorem exec_smul_of_loop {rk : RegIdx} {out : Except Raise Point} (hadm : s.admits ps)
    (h : DoubleAndAdd s.curve (s.reg rk) (s.canonPt ps) .inf out) (pd : PtIdx) :
    exec (.smul pd rk ps) s = s.conclude (commandWord 0x90000000 pd rk ps) (out.map (s.setPt pd)) := by
  rw [← h.smulLoop_eq, ← exceptBind_pure, ← encodeWord_smul, exec, execSmul]
  exact State.computing_of_admits hcfg hadm _ _

/-- SMUL of an operand that is not admitted raises DomainViolation, whatever the scalar is (43_scalar_and_order.md R170). -/
theorem exec_smul_of_not_admits (hp : 0 < s.cp) (hadm : ¬ s.admits ps) (pd : PtIdx) (rk : RegIdx) :
    exec (.smul pd rk ps) s = s.conclude (commandWord 0x90000000 pd rk ps) (.error .domainViolation) := by
  rw [← encodeWord_smul, exec, execSmul]
  exact State.computing_of_not_admits hcfg hp hadm _ _

/-- PORD of an admitted operand ends as its scan does (43_scalar_and_order.md R175, R176). -/
theorem exec_pord_of_scan {out : Except Raise Nat} (hadm : s.admits ps) (h : orderScan s.curve s.width (s.canonPt ps) = out)
    (rd : RegIdx) :
    exec (.pord rd ps) s = s.conclude (commandWord 0x94000000 rd ps 0) (out.map (s.setReg rd)) := by
  rw [← h, ← exceptBind_pure, ← encodeWord_pord, exec, execPord]
  exact State.computing_of_admits hcfg hadm _ _

/-- PORD of an operand that is not admitted raises DomainViolation (43_scalar_and_order.md R175). -/
theorem exec_pord_of_not_admits (hp : 0 < s.cp) (hadm : ¬ s.admits ps) (rd : RegIdx) :
    exec (.pord rd ps) s = s.conclude (commandWord 0x94000000 rd ps 0) (.error .domainViolation) := by
  rw [← encodeWord_pord, exec, execPord]
  exact State.computing_of_not_admits hcfg hp hadm _ _

end

/-- Settles O55: the model's loop has the outcome of the rule's loop, which has one and raises only NoInverse. -/
theorem smulIsDoubleAndAdd : Obligations.SmulIsDoubleAndAdd := by
  unfold Obligations.SmulIsDoubleAndAdd
  intro s pd rk ps loop w
  refine ⟨⟨_, doubleAndAdd_smulLoop s.curve _ _ _⟩, fun v hcfg hadm h => exec_smul_of_loop hcfg hadm h pd,
    fun e hcfg hadm hf h => ?_, fun hcfg hf hp hadm => ?_, exec_notConfigured_word (m := .smul) rfl (by decide) (by decide)⟩
  · obtain rfl : e = .noInverse := DoubleAndAdd.error_eq h
    exact ⟨rfl, (exec_smul_of_loop hcfg hadm h pd).trans (State.conclude_error_of_clear hf w .noInverse)⟩
  · rw [exec_smul_of_not_admits hcfg hp hadm]
    exact State.conclude_error_of_clear hf w .domainViolation

/-- Settles O57: the model's scan has the outcome of the rule's scan, which has one; its faults are OrderOverflow and NoInverse. -/
theorem pordIsOrderScan : Obligations.PordIsOrderScan := by
  unfold Obligations.PordIsOrderScan
  intro s rd ps hW scan w
  have scan_iff : ∀ {out}, scan out ↔ orderScan s.curve s.width (s.canonPt ps) = out := orderScan_iff hW
  refine ⟨⟨_, scan_iff.mpr rfl⟩, fun n hcfg hadm h => exec_pord_of_scan hcfg hadm (scan_iff.mp h) rd, fun hcfg hadm hf h => ?_,
    fun e hcfg hadm hf h he => ?_, fun hcfg hf hp hadm => ?_, exec_notConfigured_word (m := .pord) rfl (by decide) (by decide)⟩
  · exact (exec_pord_of_scan hcfg hadm (scan_iff.mp h) rd).trans (State.conclude_error_of_clear hf w .orderOverflow)
  · obtain rfl : e = .noInverse := orderScan_error (scan_iff.mp h) he
    exact ⟨rfl, (exec_pord_of_scan hcfg hadm (scan_iff.mp h) rd).trans (State.conclude_error_of_clear hf w .noInverse)⟩
  · rw [exec_pord_of_not_admits hcfg hp hadm]
    exact State.conclude_error_of_clear hf w .domainViolation

/-- A point with `2y = 0` has order 2: one addition reaches INF, if the counter may make it (43_scalar_and_order.md R175). -/
theorem orderScan_of_two_torsion {c : Curve} {W y : Nat} (hW : 2 ≤ W) (x : Nat) (hy : (2 * y) % c.p = 0) :
    OrderScan c W (.aff x y) (.aff x y) 1 (.ok 2) := by
  have hpow : 2 ^ 2 ≤ 2 ^ W := Nat.pow_le_pow_right (by omega) hW
  exact .next nofun (by omega) (ecadd_of_opposite x (two_mul y ▸ hy)) (.found 2)

/-- Settles O56: each clause is a run of the rule's loop or scan, written out. -/
theorem smulAndPordCornerCases : Obligations.SmulAndPordCornerCases := by
  unfold Obligations.SmulAndPordCornerCases
  refine ⟨fun s pd rk ps hcfg hadm h => ?_, fun s rd ps hcfg hinf => ?_, fun s rd ps hcfg hW hadm haff hy => ?_⟩
  · have loop : DoubleAndAdd s.curve (s.reg rk) (s.canonPt ps) .inf (.ok .inf) := by
      rcases h with hk | hinf
      · rw [hk]
        exact .done _ .inf
      · rw [State.canonPt_of_inf hinf]
        exact doubleAndAdd_inf s.curve _
    exact exec_smul_of_loop hcfg hadm loop pd
  · have scan : orderScan s.curve s.width (s.canonPt ps) = .ok 1 := by
      rw [State.canonPt_of_inf hinf]
      exact orderLoop_inf s.curve .inf _ 1
    exact exec_pord_of_scan hcfg (State.admits_of_inf hinf) scan rd
  · have scan : OrderScan s.curve s.width (s.canonPt ps) (s.canonPt ps) 1 (.ok 2) := by
      rw [State.canonPt_of_aff haff]
      exact orderScan_of_two_torsion (by omega) _ hy
    exact exec_pord_of_scan hcfg hadm ((orderScan_iff (by omega)).mp scan) rd

end Sys2Proof.Machine

namespace Sys2Proof.Machine

/-! ## Scaling a point: 44_fractional_codec.md R190 to R192 -/

/-- Scaling reduces its results, so it does not matter whether its operand is reduced. -/
theorem Point.scale_canon (p k : Nat) (v : Point) : (v.canon p).scale p k = v.scale p k := by
  cases v with
  | inf => rfl
  | aff x y => simp only [Point.canon, Point.scale, Nat.mod_mul_mod]

/-- Powers of two factors that are inverse modulo `p` cancel. -/
theorem mul_pow_mul_pow_mod {p j k : Nat} (h : j * k ≡ 1 [MOD p]) (x n : Nat) : (x * j ^ n) % p * k ^ n % p = x % p := by
  rw [Nat.mod_mul_mod]
  calc x * j ^ n * k ^ n = x * (j * k) ^ n := by rw [mul_assoc, mul_pow]
    _ ≡ x * 1 ^ n [MOD p] := (h.pow n).mul_left x
    _ = x := by rw [one_pow, mul_one]

/-- Scaling by two factors that are inverse modulo `p` leaves the canonical point, on the curve or off it (R192). -/
theorem Point.scale_scale {p j k : Nat} (h : j * k ≡ 1 [MOD p]) (v : Point) : (v.scale p j).scale p k = v.canon p := by
  cases v with
  | inf => rfl
  | aff x y => simp only [Point.scale, Point.canon, mul_pow_mul_pow_mod h]

/-- The inverse of a natural, as a congruence of naturals (00_scope.md R11). -/
theorem IsInverse.natMul_modEq_one {p a b : Nat} (h : IsInverse p a b) : a * b ≡ 1 [MOD p] := by
  rw [← Int.natCast_modEq_iff]
  exact_mod_cast h.mul_modEq_one

theorem fromFractional_aff_of_not_coprime {c : Curve} (hg : Nat.gcd (c.l % c.p) c.p ≠ 1) (x y : Nat) :
    fromFractional c (.aff x y) = .error .noInverse := by
  have hl : invP c.p c.l = .error .noInverse := invP_of_not_coprime (by rwa [modP_natCast])
  simp only [fromFractional, hl]

/-! ## Reading back a point register -/

theorem State.point_setPt (s : State) (i : PtIdx) (v : Point) : (s.setPt i v).point i = v := by
  rw [State.setPt_eq, State.point, State.pt_setPtReg_self, Point.toReg_value]

theorem State.point_of_inf {s : State} {i : PtIdx} (h : (s.pt i).inf = true) : s.point i = .inf := by
  simp [State.point, PointReg.value, h]

theorem State.point_of_aff {s : State} {i : PtIdx} (h : (s.pt i).inf = false) : s.point i = .aff (s.pt i).x (s.pt i).y := by
  simp [State.point, PointReg.value, h]

/-! ## ENCF and DECF: O58, O59 -/

/-- ENCF scales its operand by `l`, reduced or not, and writes nothing else (R190). -/
theorem exec_encf {s : State} (hcfg : s.cfg = true) (pd ps : PtIdx) :
    exec (.encf pd ps) s = .next (s.setPt pd ((s.point ps).scale s.cp s.cl)) := by
  rw [exec, execEncf, State.computing_withPoint hcfg, withPoint_toReg, State.canonPt, Point.scale_canon]

theorem encodeWord_decf (pd ps : PtIdx) : encodeWord (.decf pd ps) = commandWord 0xA4000000 pd ps 0 :=
  encodeWord_eq_commandWord (i := .decf pd ps) (by decide : 0x29 * 67108864 = _)

/-- DECF ends as `fromFractional` does on its canonical operand (R191). -/
theorem exec_decf {s : State} (hcfg : s.cfg = true) (pd ps : PtIdx) :
    exec (.decf pd ps) s =
      s.conclude (commandWord 0xA4000000 pd ps 0) ((fromFractional s.curve (s.canonPt ps)).map (s.setPt pd)) := by
  rw [exec, execDecf, State.computing_of_cfg hcfg, encodeWord_decf]
  cases fromFractional s.curve (s.canonPt ps) <;> rfl

/-- With a unit CL, DECF scales its operand by the inverse of `l`, reduced or not, and writes nothing else (R191). -/
theorem exec_decf_scales {s : State} (hcfg : s.cfg = true) (hp : 1 < s.cp) (hg : Nat.gcd (s.cl % s.cp) s.cp = 1) (pd ps : PtIdx) :
    ∃ li, IsInverse s.cp s.cl li ∧ exec (.decf pd ps) s = .next (s.setPt pd ((s.point ps).scale s.cp li)) := by
  obtain ⟨li, hinv, h⟩ := exec_decf_of_coprime hcfg hp hg pd ps
  exact ⟨li, hinv, by rw [h, State.canonPt, Point.scale_canon]⟩

/-- Settles O59: `fromFractional` asks for the inverse of `l` only on an affine operand. -/
theorem decfUnscales : Obligations.DecfUnscales := by
  unfold Obligations.DecfUnscales
  intro s pd ps w
  refine ⟨fun hcfg hinf => ?_, fun hcfg hp haff hg => ?_, fun hcfg hf haff hg _ => ?_,
    exec_notConfigured_word (m := .decf) rfl (by decide) (by decide)⟩
  · rw [exec_decf hcfg, State.canonPt_of_inf hinf]
    rfl
  · obtain ⟨li, hinv, h⟩ := exec_decf_scales hcfg (by omega) hg pd ps
    rw [State.point_of_aff haff] at h
    exact ⟨li, hinv, h⟩
  · rw [exec_decf hcfg, State.canonPt_of_aff haff, fromFractional_aff_of_not_coprime (c := s.curve) hg]
    exact State.conclude_error_of_clear hf w .noInverse

/-- Settles O58: the operand's two forms under the scaling by `l`. -/
theorem encfScales : Obligations.EncfScales := by
  unfold Obligations.EncfScales
  intro s pd ps
  refine ⟨fun hcfg hinf => ?_, fun hcfg haff => ?_, exec_notConfigured_word (m := .encf) rfl (by decide) (by decide)⟩
  · rw [exec_encf hcfg, State.point_of_inf hinf]
    rfl
  · rw [exec_encf hcfg, State.point_of_aff haff]
    rfl

/-! ## The round trip: O60 -/

/-- Settles O60: the two commands scale by `l` and by its inverse, in either order, and leave the configuration as it is. -/
theorem codecRoundTrip : Obligations.CodecRoundTrip := by
  unfold Obligations.CodecRoundTrip
  intro s pd qd ps hinv hcfg
  obtain ⟨-, -, -, ⟨hconf, -⟩, -⟩ := hinv
  obtain ⟨hp, -, -, -, -, hlt, hgcd⟩ := hconf hcfg
  have hp1 : 1 < s.cp := by omega
  have hunit : Nat.gcd (s.cl % s.cp) s.cp = 1 := by rw [Nat.mod_eq_of_lt hlt, hgcd]
  constructor
  · obtain ⟨li, hli, hdecf⟩ := exec_decf_scales (s := s.setPt pd ((s.point ps).scale s.cp s.cl)) hcfg hp1 hunit qd pd
    refine ⟨_, _, exec_encf hcfg pd ps, hdecf, ?_⟩
    rw [State.point_setPt, State.point_setPt]
    exact Point.scale_scale hli.natMul_modEq_one _
  · obtain ⟨li, hli, hdecf⟩ := exec_decf_scales hcfg hp1 hunit pd ps
    have hcancel : li * s.cl ≡ 1 [MOD s.cp] := mul_comm s.cl li ▸ hli.natMul_modEq_one
    refine ⟨_, _, hdecf, exec_encf (s := s.setPt pd _) hcfg qd pd, ?_⟩
    rw [State.point_setPt, State.point_setPt]
    exact Point.scale_scale hcancel _

end Sys2Proof.Machine

namespace Sys2Proof.Machine

/-! ## What RDCSR reads: O32

The model packs STATUS, CTRL and WIDTH as 32-bit words; `csrValue` gives them as the sums of their fields. -/

/-- STATUS as the sum of its fields (10_state.md R25). -/
theorem State.statusWord_toNat (s : State) :
    s.statusWord.toNat = s.cfg.toNat + 2 * s.fault.toNat + 16 * s.fcode.toNat := by
  have hcfg := s.cfg.toNat_lt
  have hfault := s.fault.toNat_lt
  simp only [State.statusWord, BitVec.toNat_append, BitVec.toNat_ofBool]
  rw [← Nat.shiftLeft_add_eq_or_of_lt (by simpa using hcfg), ← Nat.shiftLeft_add_eq_or_of_lt (by simpa using hfault)]
  simp [Nat.shiftLeft_eq]
  omega

/-- CTRL is DVCHK in bit 0 (10_state.md R29). -/
theorem State.ctrlWord_toNat (s : State) : s.ctrlWord.toNat = s.dvchk.toNat := by
  rw [State.ctrlWord, BitVec.toNat_append, BitVec.toNat_ofBool]
  simp

/-- WIDTH is `W`, which fits the register (10_state.md R36). -/
theorem State.widthWord_toNat {s : State} (hW : s.width < 2 ^ 32) : s.widthWord.toNat = s.width :=
  Nat.mod_eq_of_lt hW

/-- Each of the nine CSRs reads as the value of its layout (10_state.md R24). -/
theorem State.csr_eq_csrValue {s : State} (hW : s.width < 2 ^ 32) {n : CsrNum} (hn : n.val ≤ 8) : s.csr n = some (csrValue s n.val) := by
  obtain ⟨n, hlt⟩ := n
  change n ≤ 8 at hn
  interval_cases n
  · exact congrArg some s.statusWord_toNat
  · exact congrArg some s.ctrlWord_toNat
  · rfl
  · rfl
  · rfl
  · rfl
  · rfl
  · rfl
  · exact congrArg some (State.widthWord_toNat hW)

/-- RDCSR of a CSR that exists writes what it reads and nothing else (45_interface_commands.md R203). -/
theorem exec_rdcsr_of_csr {s : State} {csr : CsrNum} {v : Nat} (h : s.csr csr = some v) (rd : RegIdx) :
    exec (.rdcsr rd csr) s = .next (withScalar s rd v) := by
  rw [exec, execRdcsr, h]
  rfl

/-- Settles O32: the CSR numbers up to 8 exist, and each reads as its layout says. -/
theorem rdcsrReadsEveryCsr : Obligations.RdcsrReadsEveryCsr := by
  unfold Obligations.RdcsrReadsEveryCsr
  exact fun s rd csr hW hn => exec_rdcsr_of_csr (State.csr_eq_csrValue hW hn) rd

/-! ## CTRL and the fault registers: O33, O34 -/

theorem bit0_eq_testBit (v : Nat) : bit0 v = v.testBit 0 := by
  rw [Nat.testBit_zero]
  rfl

/-- Settles O33: the register's number is CTRL's, so WRCSR commits, and the bit it commits is bit 0. -/
theorem wrcsrWritesDvchk : Obligations.WrcsrWritesDvchk := by
  unfold Obligations.WrcsrWritesDvchk
  intro s rs
  have hctrl : (1 : CsrNum).val = Config.ctrlCsr := rfl
  rw [exec, execWrcsr, if_pos hctrl, State.conclude_ok, bit0_eq_testBit]

/-- With no fault pending the fault registers are clear already, and clearing them changes nothing (10_state.md R28, R30). -/
theorem State.Inv.clearFault_eq {s : State} (hinv : s.Inv) (hf : s.fault = false) : s.clearFault = s := by
  obtain ⟨-, -, -, -, ⟨-, hclear⟩, -⟩ := hinv
  obtain ⟨hcode, hcmd⟩ := hclear hf
  rw [State.clearFault, ← hf, ← hcode, ← hcmd]

/-- Settles O34: CLRF is the operation that clears the fault registers. -/
theorem clrfClearsFaultRegisters : Obligations.ClrfClearsFaultRegisters := by
  unfold Obligations.ClrfClearsFaultRegisters
  refine ⟨fun s => rfl, fun s hinv hf => ?_⟩
  rw [exec, execClrf, hinv.clearFault_eq hf]

/-! ## Scalar transfers and the response beat: O30, O31 -/

/-- Settles O30: both commands are one scalar write. -/
theorem ldrAndMovrWriteScalar : Obligations.LdrAndMovrWriteScalar := by
  unfold Obligations.LdrAndMovrWriteScalar
  refine ⟨fun s rd beat => ?_, fun s rd rs => ?_⟩
  · rw [withScalar_eq_setReg, exec, execLdr]
  · rw [withScalar_eq_setReg, exec, execMovr]

/-- STR sends its beat when the host accepts it (20_memory.md R52). -/
theorem exec_str_sends {s : State} (hr : s.ready = true) (rs : RegIdx) :
    exec (.str rs) s = .next { s with sent := s.sent ++ [s.reg rs] } :=
  if_pos hr

/-- Settles O31: STR is `sendBeat`, whose one test is the host's acceptance. -/
theorem strSendsOneBeat : Obligations.StrSendsOneBeat := by
  unfold Obligations.StrSendsOneBeat
  exact fun s rs => ⟨fun hr => exec_str_sends hr rs, fun hr => exec_str_waits hr rs⟩

/-! ## Point transfers and point reads: O35, O36 -/

theorem withPoint_eq_setPtReg (s : State) (pd : PtIdx) (q : PointReg) : withPoint s pd q = s.setPtReg pd q := rfl

/-- Settles O35: MKP and MKINF store a point value in its one form, and MOVP the three fields as they stand. -/
theorem pointTransfersStoreRaw : Obligations.PointTransfersStoreRaw := by
  unfold Obligations.PointTransfersStoreRaw
  refine ⟨fun s pd rx ry => ?_, fun s pd => ?_, fun s pd ps => ?_⟩
  · rw [exec, execMkp, ← withPoint_toReg, Point.toReg]
  · rw [exec, execMkinf, ← withPoint_toReg, Point.toReg]
  · rw [withPoint_eq_setPtReg, exec, execMovp]

theorem boolValue_eq_ite (b : Bool) : boolValue b = if b = true then 1 else 0 := rfl

/-- The stored coordinates of `INF` are 0 (10_state.md R23). -/
theorem State.Inv.coords_of_inf {s : State} {i : PtIdx} (hinv : s.Inv) (h : (s.pt i).inf = true) :
    (s.pt i).x = 0 ∧ (s.pt i).y = 0 := by
  obtain ⟨-, -, hpts, -⟩ := hinv
  obtain ⟨-, -, hinf⟩ := hpts i
  exact hinf h

/-- Settles O36: the three commands are one scalar write of a stored field, and the invariant fixes the fields of `INF`. -/
theorem pointReadsReturnStoredFields : Obligations.PointReadsReturnStoredFields := by
  unfold Obligations.PointReadsReturnStoredFields
  refine fun s rd ps => ⟨?_, ?_, ?_, fun hinv h => hinv.coords_of_inf h⟩
  · rw [withScalar_eq_setReg, exec, execPgx]
  · rw [withScalar_eq_setReg, exec, execPgy]
  · rw [withScalar_eq_setReg, exec, execPtinf, boolValue_eq_ite]

end Sys2Proof.Machine

namespace Sys2Proof

/-! ## Words the spec writes out: O4 -/

/-- A word that encodes a command decodes to it, where the command is well formed at the least width (00_scope.md R5). -/
theorem decode_of_encodeWord_eq {w : Word} (i : Instr) (h : i.wellFormed Config.minWidth = true) (hw : encodeWord i = w) :
    decode w i.beat = .ok i :=
  hw ▸ decode_encodeWord h

/-- Settles O4: each word is the encoding of its command, and decoding inverts encoding. -/
theorem specWordsDecode : Obligations.SpecWordsDecode := by
  unfold Obligations.SpecWordsDecode
  refine ⟨decode_of_encodeWord_eq (.ldr 3 42) ?_ ?_,
    decode_of_encodeWord_eq (.rdcsr 1 0) ?_ ?_,
    decode_of_encodeWord_eq (.wrcsr 1 2) ?_ ?_,
    decode_of_encodeWord_eq (.cinit 0) ?_ ?_,
    decode_of_encodeWord_eq (.madd 1 2 3) ?_ ?_,
    decode_of_encodeWord_eq (.mkp 1 2 3) ?_ ?_,
    decode_of_encodeWord_eq (.padd 1 2 3) ?_ ?_,
    decode_of_encodeWord_eq (.smul 1 2 3) ?_ ?_,
    decode_of_encodeWord_eq (.pord 1 2) ?_ ?_,
    decode_of_encodeWord_eq (.decf 4 3) ?_ ?_⟩
  all_goals decide

end Sys2Proof

namespace Sys2Proof.Machine

/-! ## The fault commit: O13, O14, O15

A command that raises a fault has one of its effects, and each of the three statements reads a part of it. -/

/-- A fault raised with none pending is of a kind the command may raise, and its commit is the whole step (60_exceptions.md R237). -/
theorem exec_raised {i : Instr} {s t : State} (hf : s.fault = false) (h : exec i s = .next t) (ht : t.fault = true) :
    ∃ e, mayRaise i s.width e ∧ t = { s with fault := true, fcode := e.code, fcmd := encodeWord i } := by
  cases exec_effect h with
  | raised e he => exact ⟨e, he, State.commitFault_of_clear hf e _⟩
  | cleared => cases ht
  | _ => exact absurd (hf.symm.trans ht) (by decide)

/-- A fault other than IllegalCommand is raised by a command of its row, well formed or not (60_exceptions.md R230). -/
theorem mayRaise.mem_raisedBy {i : Instr} {W : Nat} {e : Raise} (h : mayRaise i W e) (he : e ≠ .illegalCommand) :
    i.mnemonic ∈ e.raisedBy :=
  h.resolve_right fun hill => he hill.1

/-- A well-formed command raises the faults of its rows only, IllegalCommand not among them (60_exceptions.md R230). -/
theorem mayRaise.mem_raisedBy_of_wellFormed {i : Instr} {W : Nat} {e : Raise} (h : mayRaise i W e) (hwf : i.wellFormed W = true) :
    i.mnemonic ∈ e.raisedBy :=
  h.resolve_right fun hill => absurd (hwf.symm.trans hill.2) (by decide)

/-- Settles O13: the only effect that leaves a new fault pending is the commit. -/
theorem faultCommitIsPrecise : Obligations.FaultCommitIsPrecise := by
  unfold Obligations.FaultCommitIsPrecise
  intro i s t hf h ht
  obtain ⟨e, -, rfl⟩ := exec_raised hf h ht
  rfl

/-- Settles O14: the committed code is that of a kind the command may raise, and each kind is a row of the statement. -/
theorem faultCodeNamesItsRaisers : Obligations.FaultCodeNamesItsRaisers := by
  unfold Obligations.FaultCodeNamesItsRaisers
  intro i s t hwf hf h ht
  obtain ⟨e, hmay, rfl⟩ := exec_raised hf h ht
  have hmem := hmay.mem_raisedBy_of_wellFormed hwf
  cases e with
  | illegalCommand => cases hmem
  | notConfigured => exact .inl ⟨rfl, hmem⟩
  | invalidModulus => exact .inr (.inl ⟨rfl, hmem⟩)
  | noInverse => exact .inr (.inr (.inl ⟨rfl, hmem⟩))
  | orderOverflow => exact .inr (.inr (.inr (.inl ⟨rfl, hmem⟩)))
  | domainViolation => exact .inr (.inr (.inr (.inr ⟨rfl, hmem⟩)))

/-- A new fault with the code of any kind but IllegalCommand is raised by a command of that kind's row (60_exceptions.md R230). -/
theorem mem_raisedBy_of_fcode {i : Instr} {s t : State} {e : Raise} (hf : s.fault = false) (h : exec i s = .next t)
    (ht : t.fault = true) (hcode : t.fcode = e.code) (he : e ≠ .illegalCommand) : i.mnemonic ∈ e.raisedBy := by
  obtain ⟨e', hmay, rfl⟩ := exec_raised hf h ht
  obtain rfl : e' = e := Raise.code_injective hcode
  exact hmay.mem_raisedBy he

/-- CINIT and the commands of 45_interface_commands.md are not in NotConfigured's row (60_exceptions.md R232). -/
theorem not_mem_of_mem_raisedBy_notConfigured :
    ∀ m ∈ Raise.raisedBy .notConfigured,
      m ∉ [.cinit, .ldr, .str, .movr, .rdcsr, .wrcsr, .clrf, .mkp, .mkinf, .movp, .pgx, .pgy, .ptinf] := by
  decide

/-- Settles O15: the test of CFG comes before the body of every command of the row, and code 2 is that row's alone. -/
theorem computingCommandsNeedConfiguration : Obligations.ComputingCommandsNeedConfiguration := by
  unfold Obligations.ComputingCommandsNeedConfiguration
  refine ⟨fun i s hcfg hf hm => exec_notConfigured hm hcfg hf, fun i s t hf h ht hcode => ?_⟩
  exact not_mem_of_mem_raisedBy_notConfigured _ (mem_raisedBy_of_fcode (e := .notConfigured) hf h ht hcode nofun)

/-! ## The domain check: O52 -/

/-- PADD raises DomainViolation on a first operand that is not admitted, before it looks at the second (42_point_ops.md R147). -/
theorem exec_padd_of_not_admits_left {s : State} {a : PtIdx} (hcfg : s.cfg = true) (hp : 0 < s.cp) (h : ¬ s.admits a)
    (pd b : PtIdx) :
    exec (.padd pd a b) s = s.conclude (commandWord 0x88000000 pd a b) (.error .domainViolation) := by
  rw [← encodeWord_padd, exec, execPadd]
  exact State.computing_of_not_admits hcfg hp h _ _

/-- PADD raises DomainViolation on a second operand that is not admitted: its two checks may change places (42_point_ops.md R147). -/
theorem exec_padd_of_not_admits_right {s : State} {a : PtIdx} (hcfg : s.cfg = true) (hp : 0 < s.cp) (h : ¬ s.admits a)
    (pd b : PtIdx) :
    exec (.padd pd b a) s = s.conclude (commandWord 0x88000000 pd b a) (.error .domainViolation) := by
  rw [← encodeWord_padd, exec, execPadd, State.computing_of_cfg hcfg, State.domainCheck_comm, State.domainCheck_of_not_admits hp h]
  rfl

/-- With DVCHK = 0 every operand is admitted (42_point_ops.md R147). -/
theorem State.admits_of_dvchk {s : State} (h : s.dvchk = false) (i : PtIdx) : s.admits i := fun hd =>
  absurd (h.symm.trans hd) (by decide)

/-- A command whose computation does not raise `e` and whose write leaves FAULT as it is commits no code of `e`. -/
theorem State.conclude_map_fcode_ne {α : Type} {s t : State} {w : Word} {x : Except Raise α} {write : α → State} {e : Raise}
    (h : s.conclude w (x.map write) = .next t) (hf : s.fault = false) (ht : t.fault = true) (hx : x ≠ .error e)
    (hwrite : ∀ a, (write a).fault = s.fault) : t.fcode ≠ e.code := by
  cases x with
  | ok a => cases h; exact absurd ((hwrite a).symm.trans ht) (by simp [hf])
  | error e' =>
    obtain rfl : _ = t := Host.Outcome.next.inj ((State.conclude_error_of_clear hf w e').symm.trans h)
    exact fun hcode => hx (congrArg Except.error (Raise.code_injective hcode))

/-- The order scan has no fault of its own but the counter's (43_scalar_and_order.md R175, R176). -/
theorem orderScan_ne_domainViolation (c : Curve) (W : Nat) (g : Point) : orderScan c W g ≠ .error .domainViolation :=
  fun h => nomatch orderScan_error h nofun

/-- With DVCHK = 0 a configured group command ends as its computation does, and no computation raises DomainViolation. -/
theorem exec_group_fcode_ne {i : Instr} {s t : State} (hm : i.mnemonic ∈ Raise.raisedBy .domainViolation) (hcfg : s.cfg = true)
    (hf : s.fault = false) (hdv : s.dvchk = false) (h : exec i s = .next t) (ht : t.fault = true) :
    t.fcode ≠ Raise.code .domainViolation := by
  have hadm := State.admits_of_dvchk hdv
  cases i with
  | padd pd a b =>
    rw [exec_padd_of_admits hcfg (hadm a) (hadm b)] at h
    exact State.conclude_map_fcode_ne h hf ht (fun he => nomatch ecadd_error he) fun _ => rfl
  | pdbl pd ps =>
    rw [exec_pdbl_of_admits hcfg (hadm ps)] at h
    exact State.conclude_map_fcode_ne h hf ht (fun he => nomatch ecadd_error he) fun _ => rfl
  | smul pd rk ps =>
    rw [exec_smul_of_loop hcfg (hadm ps) (doubleAndAdd_smulLoop s.curve _ _ _)] at h
    exact State.conclude_map_fcode_ne h hf ht (fun he => nomatch smulLoop_error he) fun _ => rfl
  | pord rd ps =>
    rw [exec_pord_of_scan hcfg (hadm ps) rfl] at h
    exact State.conclude_map_fcode_ne h hf ht (orderScan_ne_domainViolation _ _ _) fun _ => rfl
  | _ => simp [Instr.mnemonic, Raise.raisedBy] at hm

/-- The commands of DomainViolation's row are computing commands (60_exceptions.md R232, R236). -/
theorem mem_notConfigured_of_mem_domainViolation : ∀ m ∈ Raise.raisedBy .domainViolation, m ∈ Raise.raisedBy .notConfigured := by
  decide

/-- With DVCHK = 0 no command commits DomainViolation's code (60_exceptions.md R236). -/
theorem fcode_ne_domainViolation {i : Instr} {s t : State} (hf : s.fault = false) (hdv : s.dvchk = false)
    (h : exec i s = .next t) (ht : t.fault = true) : t.fcode ≠ Raise.code .domainViolation := by
  intro hcode
  have hm : i.mnemonic ∈ Raise.raisedBy .domainViolation := mem_raisedBy_of_fcode hf h ht hcode nofun
  cases hcfg : s.cfg with
  | true => exact exec_group_fcode_ne hm hcfg hf hdv h ht hcode
  | false =>
    rw [exec_notConfigured (mem_notConfigured_of_mem_domainViolation _ hm) hcfg hf] at h
    cases h
    exact absurd (Raise.code_injective (e := .notConfigured) hcode) nofun

/-- Settles O52: the check comes before each command's computation, and no computation raises the check's fault. -/
theorem domainCheckComesFirst : Obligations.DomainCheckComesFirst := by
  unfold Obligations.DomainCheckComesFirst
  refine ⟨fun s pd rd rk a b hcfg hf hp hadm => ?_, fun i s t hf hdv h ht => fcode_ne_domainViolation hf hdv h ht⟩
  have hcommit := fun w => State.conclude_error_of_clear hf w .domainViolation
  exact ⟨(exec_padd_of_not_admits_left hcfg hp hadm pd b).trans (hcommit _),
    (exec_padd_of_not_admits_right hcfg hp hadm pd b).trans (hcommit _),
    (exec_pdbl_of_not_admits hcfg hp hadm pd).trans (hcommit _),
    (exec_smul_of_not_admits hcfg hp hadm pd rk).trans (hcommit _),
    (exec_pord_of_not_admits hcfg hp hadm rd).trans (hcommit _)⟩

/-! ## Illegal words: O9 -/

/-- With no fault pending, issuing an illegal word writes the fault registers and nothing else (60_exceptions.md R231, R237). -/
theorem issue_illegal {w : Word} {beat : Nat} {e : Reject} {s : State} (hd : decode w beat = .error e) (hf : s.fault = false) :
    issue w beat s = .next { s with fault := true, fcode := 1, fcmd := w } := by
  rw [issue_of_error hd hf, State.commitFault_of_clear hf, Raise.code]

/-- Settles O9: the word's units are taken in either receive state, and `issue` commits IllegalCommand. -/
theorem illegalWordCommitsIllegalCommand : Obligations.IllegalWordCommitsIllegalCommand := by
  unfold Obligations.IllegalWordCommitsIllegalCommand
  refine ⟨fun s w beat e rest hrx hf hb hu hd => ?_, fun s w beat e rest hrx hf hb hu hd => ?_⟩
  · rw [step_of_word hrx hu hb]
    exact issue_illegal hd hf
  · rw [step_of_beat hrx hu hb]
    exact issue_illegal hd hf

/-! ## The end of the faulted state: O11 -/

/-- A command that ends a pending fault is CLRF (60_exceptions.md R241). -/
theorem Effect.eq_clrf {i : Instr} {s t : State} (h : Effect i s t) (hs : s.fault = true) (ht : t.fault = false) : i = .clrf := by
  cases h with
  | raised e => simp at ht
  | cleared hi => exact hi
  | _ => exact absurd (hs.symm.trans ht) (by decide)

/-- A word whose issue ends a pending fault decodes to CLRF, and its issue is the return (60_exceptions.md R241). -/
theorem issue_ends_fault {w : Word} {beat : Nat} {s t : State} (h : issue w beat s = .next t) (hs : s.fault = true)
    (ht : t.fault = false) : decode w beat = .ok .clrf ∧ t = s.clearFault := by
  rcases issue_next h with ⟨-, rfl⟩ | ⟨e, hf, -, -⟩ | ⟨i, hd, -, hexec⟩
  · exact absurd (hs.symm.trans ht) (by decide)
  · exact absurd (hf.symm.trans hs) (by decide)
  · obtain rfl := (exec_effect hexec).eq_clrf hs ht
    cases hexec
    exact ⟨hd, rfl⟩

/-- The word of CLRF is followed by no beat (30_encoding.md R77). -/
theorem hasBeat_of_decode_clrf {w : Word} {beat : Nat} (hd : decode w beat = .ok .clrf) : Word.hasBeat w = false :=
  Bool.eq_false_iff.mpr fun hb => absurd (runsFaulted_of_hasBeat hb hd) (by decide)

theorem encodeWord_clrf : encodeWord .clrf = 0x18000000 := by decide

/-- Settles O11: of the six things a step can be, only the issue of a word that decodes to CLRF ends the fault; a core that awaits a beat
holds an LDR word. -/
theorem onlyClrfEndsFaultedState : Obligations.OnlyClrfEndsFaultedState := by
  unfold Obligations.OnlyClrfEndsFaultedState
  intro s t hok h hs ht
  rcases step_cases s with ⟨-, -, hstep⟩ | ⟨-, -, hstep⟩ | ⟨-, hstep⟩ | ⟨u, -, -, -, hstep⟩ | ⟨u, beat, rest, hrx, hu, -, -, hstep⟩
    | ⟨w, beat, rest, hrx, -, -, hstep⟩
  all_goals rw [hstep] at h
  · cases h
  · cases h
  · cases h
  · cases h
    exact absurd (hs.symm.trans ht) (by decide)
  · obtain ⟨hd, rfl⟩ := issue_ends_fault h hs ht
    rw [hasBeat_of_decode_clrf hd] at hu
    exact ⟨hrx, ⟨u, (encodeWord_of_decode hd).symm.trans encodeWord_clrf, hu⟩, rfl⟩
  · obtain ⟨hd, -⟩ := issue_ends_fault h hs ht
    have hbeat : Word.hasBeat w = true := by rwa [hrx] at hok
    exact absurd hbeat (by simp [hasBeat_of_decode_clrf hd])

end Sys2Proof.Machine

namespace Sys2Proof.Machine

/-! ## Completion: O26 -/

/-- Settles O26, by the case split over the commands in `exec_completes_or_waits`. -/
theorem everyCommandCompletesOrWaits : Obligations.EveryCommandCompletesOrWaits := by
  unfold Obligations.EveryCommandCompletesOrWaits
  exact exec_completes_or_waits

/-! ## The reset state: O16, O18 -/

/-- Settles O18, by the invariant's clauses in `State.resetAt_inv`. -/
theorem resetMeetsInvariant : Obligations.ResetMeetsInvariant := by
  unfold Obligations.ResetMeetsInvariant
  exact fun _ low high => State.resetAt_inv low high

@[simp] theorem State.reg_resetAt (W : Nat) (i : RegIdx) : (State.resetAt W).reg i = 0 := by simp [State.reg, State.resetAt]

@[simp] theorem State.pt_resetAt (W : Nat) (i : PtIdx) : (State.resetAt W).pt i = { inf := true, x := 0, y := 0 } := by
  simp [State.pt, State.resetAt]

/-- The reset state of `s`'s width with the units `us` on its channel and the host's side of the response channel as in `s`. -/
def State.resetWith (s : State) (us : List Nat) : State :=
  { State.resetAt s.width with units := us, ready := s.ready, sent := s.sent }

/-- A reset event that comes before the core has taken a unit of the next command leaves every unit (log 9). -/
theorem State.onHost_reset_zero (s : State) : s.onHost (.reset 0) = s.resetWith s.units := by
  rw [State.onHost, State.resetEvent, Nat.zero_min, List.drop_zero, State.resetWith]

/-- Settles O16: a reset event writes the fields of the reset state, whose register files hold one value throughout. -/
theorem resetValues : Obligations.ResetValues := by
  unfold Obligations.ResetValues
  exact ⟨fun s _ => ⟨State.reg_resetAt s.width, State.pt_resetAt s.width, rfl, rfl, rfl, rfl, rfl, rfl, rfl, rfl, rfl, rfl, rfl,
    step_waitCommand rfl rfl⟩, State.onHost_reset_zero State.reset⟩

/-! ## A command cut off by a reset: O17 -/

/-- An idle core on any unit that a host may send: the unit is framed as its 32-bit word would be (70_reset_and_hazards.md R261). -/
theorem frame_wordOfUnit {W u : Nat} (hfit : u < 2 ^ 32 ∨ u < 2 ^ W) (rest : List Nat) :
    frame W (u :: rest) = frame W ((wordOfUnit u).toNat :: rest) := by
  have hword : (wordOfUnit u).toNat < 2 ^ 32 ∨ (wordOfUnit u).toNat < 2 ^ W := .inl (wordOfUnit u).isLt
  simp only [frame, if_pos hfit, if_pos hword, wordOfUnit_toNat]

/-- A step of an idle core takes a unit as its 32-bit word: it sees the channel through framing only. -/
theorem step_wordOfUnit {s : State} {u : Nat} {rest : List Nat} (hrx : s.rx = .idle) (hfit : u < 2 ^ 32 ∨ u < 2 ^ s.width)
    (hu : s.units = u :: rest) : step s = step { s with units := (wordOfUnit u).toNat :: rest } := by
  simp only [step, fetch, hrx, hu, frame_wordOfUnit hfit]

/-- After a reset event the units of a well-formed command run it, whatever the core was waiting for (70_reset_and_hazards.md R261). -/
theorem step_onHost_reset_of_encode {s : State} {i : Instr} {rest : List Nat} (hwf : i.wellFormed s.width = true)
    (hu : s.units = encode i ++ rest) : step (s.onHost (.reset 0)) = exec i (s.resetWith rest) := by
  rw [State.onHost_reset_zero]
  exact step_of_encode (s := s.resetWith s.units) rfl hwf hu (.inl rfl)

/-- After a reset event a unit without a beat is issued as its word on the reset state (70_reset_and_hazards.md R261). -/
theorem step_onHost_reset_of_unit {s : State} {u : Nat} {rest : List Nat} (hfit : u < 2 ^ 32 ∨ u < 2 ^ s.width)
    (hu : s.units = u :: rest) (hb : Word.hasBeat (wordOfUnit u) = false) :
    step (s.onHost (.reset 0)) = issue (wordOfUnit u) 0 (s.resetWith rest) := by
  rw [State.onHost_reset_zero]
  exact step_of_unit (s := s.resetWith s.units) (beat := 0) rfl (hu.trans (by rw [hb]; rfl)) hfit (Nat.two_pow_pos _)

/-- A command takes at most two units, an LDR word and its beat (30_encoding.md R77). -/
theorem State.pendingUnits_le (s : State) : s.pendingUnits ≤ 2 := by
  unfold State.pendingUnits
  split
  · decide
  · split
    · decide
    · split <;> decide

/-- A reset event takes at most two units from the front of the channel (log 9). -/
theorem State.units_onHost_reset (s : State) (taken : Nat) :
    ∃ front, s.units = front ++ (s.onHost (.reset taken)).units ∧ front.length ≤ 2 :=
  have hle : min taken s.pendingUnits ≤ 2 := (Nat.min_le_right _ _).trans s.pendingUnits_le
  ⟨s.units.take (min taken s.pendingUnits), (List.take_append_drop _ _).symm, (List.length_take_le _ _).trans hle⟩

/-- Units of at most `W` bits fit in either position (20_memory.md R51, R55). -/
theorem unitsFit_of_forall_lt {W : Nat} {us : List Nat} (h : ∀ u ∈ us, u < 2 ^ W) (beatNext : Bool) :
    unitsFit W beatNext us = true := by
  induction us generalizing beatNext with
  | nil => rw [unitsFit]
  | cons u rest ih =>
    obtain ⟨hu, hrest⟩ := List.forall_mem_cons.mp h
    cases beatNext with
    | false => simp [unitsFit, hu, ih hrest]
    | true => simp [unitsFit, hu, ih hrest]

/-- No lawful host meets a misfit unit after a reset event (log 4). -/
theorem State.channelOk_onHost_reset {s : State} (h : ∀ u ∈ s.units, u < 2 ^ s.width) (taken : Nat) :
    (s.onHost (.reset taken)).channelOk = true :=
  unitsFit_of_forall_lt (fun u hu => h u (List.mem_of_mem_drop hu)) _

/-- Settles O17: the reset event leaves an idle core without a fault, which issues what stands at the front of the channel. -/
theorem resetDiscardsPartlyReceivedCommand : Obligations.ResetDiscardsPartlyReceivedCommand := by
  unfold Obligations.ResetDiscardsPartlyReceivedCommand
  refine ⟨fun s _ i rest _ hwf hu => step_onHost_reset_of_encode hwf hu, fun s _ u rest _ hfit hu hb => ?_,
    fun s u rest hrx hfit hu => step_wordOfUnit hrx hfit hu,
    fun s taken => ⟨rfl, s.units_onHost_reset taken, fun _ h => State.channelOk_onHost_reset h taken⟩⟩
  rw [step_onHost_reset_of_unit hfit hu hb]
  refine ⟨fun i hd => issue_of_ok hd (.inl rfl), fun hill => ?_⟩
  cases hd : decode (wordOfUnit u) 0 with
  | ok i => exact absurd hd (hill i)
  | error e => exact issue_illegal hd rfl

end Sys2Proof.Machine
